-- ==== Sys2Proof/Word.lean ====
section
/-! DEFINITION. The plain types of words, addresses, register ids and text. -/

namespace Sys2Proof

/-- One byte, bit 7 the most significant (R8). -/
abbrev Byte := BitVec 8

/-- A full register, an effective address, an extended value: `XLEN = 64` (R7). -/
abbrev Word := BitVec 64

/-- A 64-bit byte address (R40). -/
abbrev Addr := BitVec 64

/-- The sum `addr + len` inside the block, 65-bit-safe: it may be `2^64` itself (R24). The port `next_addr` has 64 bits
(R32). -/
abbrev NextAddr := BitVec 65

/-- A 4-bit register id, 0 to 15 (R25). -/
abbrev RegId := BitVec 4

/-- A 3-bit class number, one of the eight classes that have a handler (R64). -/
abbrev ClassId := BitVec 3

/-- A character string (R21, component `text`). -/
abbrev Text := List Char

/-- The memory store as data: (address, byte) pairs in ascending order of address. -/
abbrev Memory := List (Nat × BitVec 8)

/-- One past the highest address, `2^64` (R40). -/
abbrev addressSpace : Nat := 18446744073709551616

end Sys2Proof
end

