-- ==== Sys2Proof/Syntax.lean ====
section
/-! DEFINITION. The instructions as syntax (one constructor per row of the opcode table, and the four shapes of the
non-default framing rule), the decoded field record, the operand values, and the four error kinds. -/

namespace Sys2Proof

/-- The two instruction formats: F8, 8 bytes (R60), and F16, 16 bytes (R61). -/
inductive Format where
  | f8
  | f16
  deriving DecidableEq, Repr

/-- The length of a format in bytes. -/
def Format.bytes : Format → Nat
  | .f8 => 8
  | .f16 => 16

/-- The valid field tuple of R110: the twelve fields of bytes 0 to 3, each of exactly its width (R62, R109). -/
structure Header where
  cls   : BitVec 4
  typ   : BitVec 4
  ss    : BitVec 2
  ds    : BitVec 2
  di    : BitVec 2
  mem   : BitVec 2
  bp    : BitVec 1
  ip    : BitVec 1
  scale : BitVec 2
  index : RegId
  base  : RegId
  dest  : RegId
  deriving DecidableEq, Repr

/-- The fields that no opcode row fixes: everything but `class`, `ss`, `di` and the 8-byte field. -/
structure Slots where
  typ    : BitVec 4
  ds     : BitVec 2
  mem    : BitVec 2
  bp     : BitVec 1
  ip     : BitVec 1
  scale  : BitVec 2
  index  : RegId
  base   : RegId
  dest   : RegId
  disp32 : BitVec 32
  deriving DecidableEq, Repr

/-- The header of a row's instruction: the fields the row fixes (`class`, and `ss`, `di` where it fixes them) beside
the slots (R62). -/
def Slots.header (c : Slots) (cls : BitVec 4) (ss di : BitVec 2) : Header :=
  { cls := cls, typ := c.typ, ss := ss, ds := c.ds, di := di, mem := c.mem, bp := c.bp, ip := c.ip,
    scale := c.scale, index := c.index, base := c.base, dest := c.dest }

/-- The instructions: one constructor per row of the opcode table (R73, R80). A constructor's name is its row's label.
The four constructors marked "R154" exist only under `FRAME_RULE = INDEX_PRESENT`, where the length of the header of
the `IMM64` row is 8 and that of the `REGREG` row with `ip = 1` and `ss = 3` is 16 (conflict C1). -/
inductive Instr where
  /-- Class 0, 8 bytes whatever byte 1 holds (R210). -/
  | class0F8 (ss di : BitVec 2) (c : Slots)
  /-- Class 1, `di = 3`, 16 bytes (R211). -/
  | class1F16Memext (ss : BitVec 2) (c : Slots) (ext64 : Word)
  /-- Class 1, `di = 1`, `ss = 3`, 16 bytes, under `IMM_BIT` (R211). -/
  | class1F16Imm64 (c : Slots) (ext64 : Word)
  /-- Class 1, `di = 0`, 8 bytes (R211). -/
  | class1F8Regreg (ss : BitVec 2) (c : Slots)
  /-- Class 1, `di = 2`, 8 bytes (R211). -/
  | class1F8Mem (ss : BitVec 2) (c : Slots)
  /-- Class 1, `di = 1`, `ss = 0`, 8 bytes (R211). -/
  | class1F8Imm8 (c : Slots)
  /-- Class 1, `di = 1`, `ss = 1`, 8 bytes (R211). -/
  | class1F8Imm16 (c : Slots)
  /-- Class 1, `di = 1`, `ss = 2`, 8 bytes (R211). -/
  | class1F8Imm32 (c : Slots)
  /-- R154: class 1, `di = 1`, `ss = 3`, 8 bytes, under `INDEX_PRESENT`. -/
  | class1F8Imm64 (c : Slots)
  /-- R154: class 1, `di = 0`, `ss = 3`, `ip = 1`, 16 bytes, under `INDEX_PRESENT`. -/
  | class1F16Regidx (c : Slots) (ext64 : Word)
  /-- Class 2, `di = 3`, 16 bytes (R212). -/
  | class2F16Memext (ss : BitVec 2) (c : Slots) (ext64 : Word)
  /-- Class 2, `di = 1`, `ss = 3`, 16 bytes, under `IMM_BIT` (R212). -/
  | class2F16Imm64 (c : Slots) (ext64 : Word)
  /-- Class 2, `di = 0`, 8 bytes (R212). -/
  | class2F8Regreg (ss : BitVec 2) (c : Slots)
  /-- Class 2, `di = 2`, 8 bytes (R212). -/
  | class2F8Mem (ss : BitVec 2) (c : Slots)
  /-- Class 2, `di = 1`, `ss = 0`, 8 bytes (R212). -/
  | class2F8Imm8 (c : Slots)
  /-- Class 2, `di = 1`, `ss = 1`, 8 bytes (R212). -/
  | class2F8Imm16 (c : Slots)
  /-- Class 2, `di = 1`, `ss = 2`, 8 bytes (R212). -/
  | class2F8Imm32 (c : Slots)
  /-- R154: class 2, `di = 1`, `ss = 3`, 8 bytes, under `INDEX_PRESENT`. -/
  | class2F8Imm64 (c : Slots)
  /-- R154: class 2, `di = 0`, `ss = 3`, `ip = 1`, 16 bytes, under `INDEX_PRESENT`. -/
  | class2F16Regidx (c : Slots) (ext64 : Word)
  /-- Class 3, 8 bytes whatever byte 1 holds (R213). -/
  | class3F8 (ss di : BitVec 2) (c : Slots)
  /-- Class 4, 8 bytes whatever byte 1 holds (R214). -/
  | class4F8 (ss di : BitVec 2) (c : Slots)
  /-- Class 5, 8 bytes whatever byte 1 holds (R215). -/
  | class5F8 (ss di : BitVec 2) (c : Slots)
  /-- Class 6, 8 bytes whatever byte 1 holds (R216). -/
  | class6F8 (ss di : BitVec 2) (c : Slots)
  /-- Class 7, 8 bytes whatever byte 1 holds (R217). -/
  | class7F8 (ss di : BitVec 2) (c : Slots)
  /-- Class 8 to 15: 8 bytes for the walk, no handler (R75, R166). -/
  | unknownClass (cls : BitVec 4) (ss di : BitVec 2) (c : Slots)
  deriving DecidableEq, Repr

/-- The record `F` of decoded fields a handler receives (R21, R163, R200). `ext64` is there exactly in F16. The four
composite bytes and `ext_valid` are views of it (`Fields.opcode` and so on), stored once. -/
structure Fields where
  hdr    : Header
  disp32 : BitVec 32
  ext64  : Option Word
  len    : Format
  addr   : Addr
  deriving DecidableEq, Repr

/-- `ext_valid`: 1 exactly when the 8-byte field is there (R71). -/
def Fields.extValid (f : Fields) : BitVec 1 := if f.ext64.isSome then 1#1 else 0#1

/-- An operand width, one of 8, 16, 32, 64 bits (R120). -/
inductive Width where
  | w8
  | w16
  | w32
  | w64
  deriving DecidableEq, Repr

/-- The number of bits of a width. -/
def Width.bits : Width → Nat
  | .w8 => 8
  | .w16 => 16
  | .w32 => 32
  | .w64 => 64

/-- `RegisterOperand`: a register id and a width (R120, R121). -/
structure RegisterOperand where
  id   : RegId
  size : Width
  deriving DecidableEq, Repr

/-- `MemoryOperand` (R122, R124). `none` is the out-of-band `ABSENT` of R123; `displacement` is a 64-bit
two's-complement pattern. -/
structure MemoryOperand where
  base         : Option RegisterOperand
  index        : Option RegisterOperand
  scale        : Int
  displacement : Option Word
  size         : Width
  deriving DecidableEq, Repr

/-- An operand of a disassembly line: a register, a memory operand, or an immediate with its width (R200). -/
inductive Operand where
  | reg (r : RegisterOperand)
  | mem (m : MemoryOperand)
  | imm (value : Word) (width : Width)
  deriving DecidableEq, Repr

/-- A register id that field decode delivers (R62, R202). -/
inductive IdChoice where
  | dest
  | base
  | index
  deriving DecidableEq, Repr

/-- A width that field decode or operand resolution delivers: `W(ss)`, `W(ds)`, or the address width of a base or index
register and of an 8-byte value (R129, R130, R202). -/
inductive WidthChoice where
  | ss
  | ds
  | full
  deriving DecidableEq, Repr

/-- A value that field decode or operand resolution delivers: the immediate, the extended value, or the displacement
(R131, R132, R202). -/
inductive ValueChoice where
  | imm
  | ext
  | displacement
  deriving DecidableEq, Repr

/-- What a handler lists as one operand (R202): a member of the bundle, an immediate, or an operand it builds from
delivered parts with the constructors of R121 and R124. It names parts and holds no id, width or value of its own. -/
inductive OperandChoice where
  /-- The bundle's `dst`. -/
  | dst
  /-- The bundle's `src`. -/
  | src
  /-- The bundle's `mem_op`. -/
  | memOp
  /-- A delivered value as an immediate of a delivered width. -/
  | imm (value : ValueChoice) (width : WidthChoice)
  /-- A register operand built from a delivered id and width (R121). -/
  | builtReg (id : IdChoice) (width : WidthChoice)
  /-- A memory operand built from delivered parts (R124), with the delivered scale factor. -/
  | builtMem (base index : Option (IdChoice × WidthChoice)) (displacement : Option ValueChoice) (size : WidthChoice)
  deriving DecidableEq, Repr

/-- The operand bundle of R128. `none` is the bundle's "none". -/
structure Bundle where
  kind   : BitVec 2
  dst    : RegisterOperand
  src    : Option RegisterOperand
  imm    : Option Word
  memOp  : Option MemoryOperand
  ext    : Option Word
  memvar : BitVec 2
  deriving DecidableEq, Repr

/-- The four error kinds with their info (R220). -/
inductive BlockError where
  /-- A malformed bit-slice request at the codec service port (R101, R221). -/
  | invalidRange (start stop : Int)
  /-- A class value with no handler, found at dispatch (R166, R222). -/
  | unknownOpcodeClass (cls : BitVec 4) (addr : Addr)
  /-- An address that is no instruction boundary (R159, R223). -/
  | misalignedAddress (addr : Addr)
  /-- The default update hook of a placed element (R196, R224); never raised by the block. -/
  | unsupportedLayoutUpdate (element : Addr)
  deriving DecidableEq, Repr

/-- Which terminal a decode cycle is driven to, the port `req_terminal` (R32, R184). -/
inductive Terminal where
  | disassemble
  | execute
  deriving DecidableEq, Repr

/-- Whether the driver goes on starting decode cycles. A run ends when an executed cycle's successor is `PROG_END`, or
when a cycle ends in `ERROR`, whose signal the driver has then received (R191, R266). -/
inductive RunStatus where
  | running
  | endedNormally
  | endedAbnormally (err : Option BlockError)
  deriving DecidableEq, Repr

/-- The positions of the decode-cycle state machine (R22, R181). -/
inductive Phase where
  | idle
  | rawBytes
  | framed
  | fieldsDecoded
  | operandsResolved
  | disassembled
  | executed
  | error
  deriving DecidableEq, Repr

end Sys2Proof
end

