-- ==== Sys2Proof/Config.lean ====
section
/-! DEFINITION. The constants of an instance of the block (R7, R36), and the external functions the spec leaves open
(R200) as opaque constants: nothing in Lean can evaluate them or prove a value of them. -/

namespace Sys2Proof

/-- Byte order of the two payload fields, OPEN in the spec (R45, D3). -/
inductive PayloadOrder where
  | be
  | le
  deriving DecidableEq, Repr

/-- Reading of the second framing condition (R150 `IMM_BIT`, the default; R154 `INDEX_PRESENT`, marked non-default). -/
inductive FrameRule where
  | immBit
  | indexPresent
  deriving DecidableEq, Repr

/-- Which size code gives a memory operand its width (R7, R129); `ss` is the default. -/
inductive MemSizeSel where
  | ss
  | ds
  deriving DecidableEq, Repr

/-- What the 8-byte field of a `di = 3` instruction is, OPEN in the spec (R132, D11). The block only delivers the
value; only the external functions below may depend on the role. -/
inductive ExtRole where
  | immediate
  | wideDisplacement
  deriving DecidableEq, Repr

/-- The parameters of an instance: fixed before reset, never changed, not state (R36). -/
structure Config where
  payloadOrder : PayloadOrder
  frameRule    : FrameRule
  memSizeSel   : MemSizeSel
  extRole      : ExtRole
  deriving DecidableEq, Repr

/-- The instance the reset state and `decodeTableWord` name. DESIGN CHOICE (log 1): `frameRule` and `memSizeSel` are
the spec's defaults; `payloadOrder = BE` is the one D3 says the source's hint favours; `extRole` is free in the spec. -/
def Config.standard : Config :=
  { payloadOrder := .be, frameRule := .immBit, memSizeSel := .ss, extRole := .immediate }

/-- The external machine state a handler is given: the register file, the memory store (R25, R30) and the address it
names for the driver's next cycle (R190). -/
structure MachineState where
  regs      : Vector Word 16
  mem       : Memory
  successor : NextAddr
  deriving DecidableEq, Repr

/-- What an executor does to the machine, through the contracts of R26 and R30 only (R204): register writes, memory
bytes written, each list in order, and the successor it names, if it names one (R190). -/
structure Effect where
  regWrites : List (RegId × Word)
  memWrites : List (Addr × Byte)
  successor : Option Addr
  deriving DecidableEq, Repr, Inhabited

/-- What the 64-bit port `next_addr` carries when `addr + len` is `2^64` exactly, by `addr`: a free value, for the spec
states none (R24, R32, log 17). -/
opaque Config.nextAddrAtTop : Addr → Addr

/-- `RegName(id, width)`, the external register-name resolver, total (R27). -/
opaque Config.regName : RegId → Width → Text

/-- `RenderImm(value, width)`, the text of an immediate operand (R142). -/
opaque Config.renderImm : Word → Width → Text

/-- `Mnemonic[c](type)` (R200, R201). -/
opaque Config.mnemonic : ClassId → BitVec 4 → Text

/-- The choices of `OperandList[c](F, O)` (R200, R201), total. A handler chooses among what the block delivered (R202);
`handlerOperands` makes the operands of its choices. -/
opaque Config.operandList : ExtRole → ClassId → Fields → Bundle → List OperandChoice

/-- The effect of `Exec[c](F, O, machine, next_addr)` (R200, R204), total and uninterpreted. -/
opaque Config.execEffect : ExtRole → ClassId → Fields → Bundle → MachineState → NextAddr → Effect

end Sys2Proof
end

