-- ==== Sys2Proof/WellFormed.lean ====
section
/-! DEFINITION. Which terms of `Instr` are instructions of an instance: the checks the types do not already make. -/

namespace Sys2Proof

/-- The check of one instruction under a framing rule. The class of an unknown-class instruction is 8 to 15 (R75);
the `IMM64` rows exist under `IMM_BIT` only, and the shapes of R154 under `INDEX_PRESENT` only, where a `REGREG`
header with `ip = 1` and `ss = 3` is the 16-byte shape. -/
def Instr.wellFormed (rule : FrameRule) : Instr → Bool
  | .class1F16Imm64 _ _ | .class2F16Imm64 _ _ => rule == .immBit
  | .class1F8Imm64 _ | .class2F8Imm64 _ => rule == .indexPresent
  | .class1F16Regidx c _ | .class2F16Regidx c _ => rule == .indexPresent && c.ip == 1#1
  | .class1F8Regreg ss c | .class2F8Regreg ss c => !(rule == .indexPresent && c.ip == 1#1 && ss == 3#2)
  | .unknownClass cls _ _ _ => decide (8#4 ≤ cls)
  | .class0F8 _ _ _ | .class3F8 _ _ _ | .class4F8 _ _ _ | .class5F8 _ _ _ | .class6F8 _ _ _ | .class7F8 _ _ _ => true
  | .class1F16Memext _ _ _ | .class2F16Memext _ _ _ | .class1F8Mem _ _ | .class2F8Mem _ _ => true
  | .class1F8Imm8 _ | .class1F8Imm16 _ | .class1F8Imm32 _ => true
  | .class2F8Imm8 _ | .class2F8Imm16 _ | .class2F8Imm32 _ => true

/-- An instruction that exists in the instance `cfg`. -/
abbrev WellFormed (cfg : Config) (i : Instr) : Prop := i.wellFormed cfg.frameRule = true

end Sys2Proof
end

