-- ==== Sys2Proof/Decode.lean ====
section
/-! DEFINITION. The bitfield codec (R100 to R115), framing (R150 to R155), field decode (R163), the decoder from bytes
to an instruction, the encoder, and the opcode table (R73, R80). -/

namespace Sys2Proof

/-! ### The bit-slice primitive -/

/-- Both indices lie in 0..7 and the range is not inverted (R100, R101). -/
def rangeOk (start stop : Int) : Bool :=
  decide (0 ≤ stop) && decide (stop ≤ start) && decide (start ≤ 7)

/-- `extract(b, start, end)`: the bit slice, right-justified (R100); a bad range raises `InvalidRange` (R101). -/
def extract (b : Byte) (start stop : Int) : Except BlockError Nat :=
  if rangeOk start stop then .ok ((b.toNat >>> stop.toNat) % 2 ^ (start - stop + 1).toNat)
  else .error (.invalidRange start stop)

/-- A named accessor is a fixed-range application of `extract` (R103); with the constant ranges below it never raises
(R104). -/
def fieldOf (w : Nat) (b : Byte) (start stop : Int) : BitVec w :=
  match extract b start stop with
  | .ok v => BitVec.ofNat w v
  | .error _ => 0#w

/-! ### The twelve accessors, on the raw bytes (R103) -/

/-- `B[k]`; the callers have checked that the byte is there. -/
def byteAt (B : List Byte) (k : Nat) : Byte := B.getD k 0#8

/-- `class(B)` (R103). -/
def clsOf (B : List Byte) : BitVec 4 := fieldOf 4 (byteAt B 0) 7 4
/-- `type(B)` (R103). -/
def typOf (B : List Byte) : BitVec 4 := fieldOf 4 (byteAt B 0) 3 0
/-- `ss(B)` (R103). -/
def ssOf (B : List Byte) : BitVec 2 := fieldOf 2 (byteAt B 1) 7 6
/-- `ds(B)` (R103). -/
def dsOf (B : List Byte) : BitVec 2 := fieldOf 2 (byteAt B 1) 5 4
/-- `di(B)` (R103). -/
def diOf (B : List Byte) : BitVec 2 := fieldOf 2 (byteAt B 1) 3 2
/-- `mem(B)` (R103). -/
def memOf (B : List Byte) : BitVec 2 := fieldOf 2 (byteAt B 1) 1 0
/-- `bp(B)` (R103). -/
def bpOf (B : List Byte) : BitVec 1 := fieldOf 1 (byteAt B 2) 7 7
/-- `ip(B)` (R103). -/
def ipOf (B : List Byte) : BitVec 1 := fieldOf 1 (byteAt B 2) 6 6
/-- `scale(B)` (R103). -/
def scaleOf (B : List Byte) : BitVec 2 := fieldOf 2 (byteAt B 2) 5 4
/-- `index(B)` (R103). -/
def indexOf (B : List Byte) : RegId := fieldOf 4 (byteAt B 2) 3 0
/-- `base(B)` (R103). -/
def baseOf (B : List Byte) : RegId := fieldOf 4 (byteAt B 3) 7 4
/-- `dest(B)` (R103). -/
def destOf (B : List Byte) : RegId := fieldOf 4 (byteAt B 3) 3 0

/-- The twelve fields of bytes 0 to 3 (R62, R103). -/
def headerOf (B : List Byte) : Header :=
  { cls := clsOf B, typ := typOf B, ss := ssOf B, ds := dsOf B, di := diOf B, mem := memOf B, bp := bpOf B,
    ip := ipOf B, scale := scaleOf B, index := indexOf B, base := baseOf B, dest := destOf B }

/-! ### The composite-byte constructors -/

/-- `opcode(class, type)` (R105). -/
def opcodeByte (cls typ : BitVec 4) : Byte := (cls.setWidth 8 <<< 4) ||| typ.setWidth 8

/-- `mode(ss, ds, di, mem)` (R106). -/
def modeByte (ss ds di mem : BitVec 2) : Byte :=
  (ss.setWidth 8 <<< 6) ||| (ds.setWidth 8 <<< 4) ||| (di.setWidth 8 <<< 2) ||| mem.setWidth 8

/-- `sib(bp, ip, scale, index)` (R107). -/
def sibByte (bp ip : BitVec 1) (scale : BitVec 2) (index : RegId) : Byte :=
  (bp.setWidth 8 <<< 7) ||| (ip.setWidth 8 <<< 6) ||| (scale.setWidth 8 <<< 4) ||| index.setWidth 8

/-- `rm(base, dest)` (R108). -/
def rmByte (base dest : RegId) : Byte := (base.setWidth 8 <<< 4) ||| dest.setWidth 8

/-- The composite byte `opcode` of a field tuple (R63). -/
def Header.opcode (h : Header) : Byte := opcodeByte h.cls h.typ
/-- The composite byte `mode` of a field tuple (R63). -/
def Header.mode (h : Header) : Byte := modeByte h.ss h.ds h.di h.mem
/-- The composite byte `sib` of a field tuple (R63). -/
def Header.sib (h : Header) : Byte := sibByte h.bp h.ip h.scale h.index
/-- The composite byte `rm` of a field tuple (R63). -/
def Header.rm (h : Header) : Byte := rmByte h.base h.dest

/-- Bytes 0 to 3 of an instruction, from its field tuple (R110). -/
def Header.bytes (h : Header) : List Byte := [h.opcode, h.mode, h.sib, h.rm]

/-! ### Payload -/

/-- The integer a byte sequence denotes, first byte least significant (R10). -/
def leInt : List Byte → Nat
  | [] => 0
  | b :: bs => b.toNat + 256 * leInt bs

/-- The n bytes of a value, least significant first (R10). -/
def leBytes : Nat → Nat → List Byte
  | 0, _ => []
  | n + 1, v => BitVec.ofNat 8 v :: leBytes n (v / 256)

/-- `int_of(bytes, order)` (R10). -/
def intOf (order : PayloadOrder) (bs : List Byte) : Nat :=
  match order with
  | .le => leInt bs
  | .be => leInt bs.reverse

/-- `bytes_of(v, n, order)` (R10). -/
def bytesOf (order : PayloadOrder) (n v : Nat) : List Byte :=
  match order with
  | .le => leBytes n v
  | .be => (leBytes n v).reverse

/-- `disp32(B)`: exactly bytes 4 to 7 (R70, R111). -/
def disp32Of (order : PayloadOrder) (B : List Byte) : BitVec 32 :=
  BitVec.ofNat 32 (intOf order [byteAt B 4, byteAt B 5, byteAt B 6, byteAt B 7])

/-- `ext64(B)`: exactly bytes 8 to 15 (R71, R112). -/
def ext64Of (order : PayloadOrder) (B : List Byte) : Word :=
  BitVec.ofNat 64 (intOf order [byteAt B 8, byteAt B 9, byteAt B 10, byteAt B 11,
    byteAt B 12, byteAt B 13, byteAt B 14, byteAt B 15])

/-! ### Framing -/

/-- The number of header bytes the length depends on (R152). -/
def headerBytes : FrameRule → Nat
  | .immBit => 2
  | .indexPresent => 3

/-- `frameLength(B)` (R150), with the alternative reading R154 under `INDEX_PRESENT`; total (R151). -/
def frameLength (rule : FrameRule) (B : List Byte) : Format :=
  let extA := diOf B == 3#2
  let extB := match rule with
    | .immBit => diOf B == 1#2 && ssOf B == 3#2
    | .indexPresent => ipOf B == 1#1 && diOf B == 0#2 && ssOf B == 3#2
  if (clsOf B == 1#4 || clsOf B == 2#4) && (extA || extB) then .f16 else .f8

/-! ### Field decode -/

/-- `decodeFields(B, len)` (R163), with the address the handler's record carries (R200). -/
def decodeFields (order : PayloadOrder) (B : List Byte) (len : Format) (addr : Addr) : Fields :=
  { hdr := headerOf B, disp32 := disp32Of order B,
    ext64 := match len with
      | .f16 => some (ext64Of order B)
      | .f8 => none
    len := len, addr := addr }

/-! ### From fields to an instruction of the table -/

/-- The slots of a field tuple and its displacement. -/
def Header.slots (h : Header) (d : BitVec 32) : Slots :=
  { typ := h.typ, ds := h.ds, mem := h.mem, bp := h.bp, ip := h.ip, scale := h.scale, index := h.index,
    base := h.base, dest := h.dest, disp32 := d }

/-- The class 1 row of a header (R73, R211; R154 under `INDEX_PRESENT`). `e` is the value of bytes 8 to 15, used in
the 16-byte rows only. -/
def class1Row (rule : FrameRule) (h : Header) (d : BitVec 32) (e : Word) : Instr :=
  if h.di = 3#2 then .class1F16Memext h.ss (h.slots d) e
  else if h.di = 2#2 then .class1F8Mem h.ss (h.slots d)
  else if h.di = 1#2 then
    if h.ss = 3#2 then
      match rule with
      | .immBit => .class1F16Imm64 (h.slots d) e
      | .indexPresent => .class1F8Imm64 (h.slots d)
    else if h.ss = 2#2 then .class1F8Imm32 (h.slots d)
    else if h.ss = 1#2 then .class1F8Imm16 (h.slots d)
    else .class1F8Imm8 (h.slots d)
  else if rule = .indexPresent ∧ h.ip = 1#1 ∧ h.ss = 3#2 then .class1F16Regidx (h.slots d) e
  else .class1F8Regreg h.ss (h.slots d)

/-- The class 2 row of a header (R73, R212; R154 under `INDEX_PRESENT`). -/
def class2Row (rule : FrameRule) (h : Header) (d : BitVec 32) (e : Word) : Instr :=
  if h.di = 3#2 then .class2F16Memext h.ss (h.slots d) e
  else if h.di = 2#2 then .class2F8Mem h.ss (h.slots d)
  else if h.di = 1#2 then
    if h.ss = 3#2 then
      match rule with
      | .immBit => .class2F16Imm64 (h.slots d) e
      | .indexPresent => .class2F8Imm64 (h.slots d)
    else if h.ss = 2#2 then .class2F8Imm32 (h.slots d)
    else if h.ss = 1#2 then .class2F8Imm16 (h.slots d)
    else .class2F8Imm8 (h.slots d)
  else if rule = .indexPresent ∧ h.ip = 1#1 ∧ h.ss = 3#2 then .class2F16Regidx (h.slots d) e
  else .class2F8Regreg h.ss (h.slots d)

/-- The row of a header: the class chooses, and within classes 1 and 2 `di` and `ss` (R73). -/
def instrOf (rule : FrameRule) (h : Header) (d : BitVec 32) (e : Word) : Instr :=
  if h.cls = 0#4 then .class0F8 h.ss h.di (h.slots d)
  else if h.cls = 1#4 then class1Row rule h d e
  else if h.cls = 2#4 then class2Row rule h d e
  else if h.cls = 3#4 then .class3F8 h.ss h.di (h.slots d)
  else if h.cls = 4#4 then .class4F8 h.ss h.di (h.slots d)
  else if h.cls = 5#4 then .class5F8 h.ss h.di (h.slots d)
  else if h.cls = 6#4 then .class6F8 h.ss h.di (h.slots d)
  else if h.cls = 7#4 then .class7F8 h.ss h.di (h.slots d)
  else .unknownClass h.cls h.ss h.di (h.slots d)

/-- Why the decoder gives no instruction: fewer bytes than the instruction has. Every string of enough bytes decodes
(R77; the classes 8 to 15 decode to `unknownClass`, R75). -/
inductive DecodeError where
  | tooShort (present need : Nat)
  deriving DecidableEq, Repr

/-- Decode one instruction from the front of a byte string: its length first (R74, R164), then its fields; the rest of
the bytes is returned. -/
def decode (cfg : Config) (B : List Byte) : Except DecodeError (Instr × List Byte) :=
  if B.length < 8 then .error (.tooShort B.length 8)
  else if B.length < (frameLength cfg.frameRule B).bytes then
    .error (.tooShort B.length (frameLength cfg.frameRule B).bytes)
  else .ok (instrOf cfg.frameRule (headerOf B) (disp32Of cfg.payloadOrder B) (ext64Of cfg.payloadOrder B),
    B.drop (frameLength cfg.frameRule B).bytes)

/-! ### From an instruction back to its fields and bytes -/

/-- The twelve fields of an instruction: what its row fixes and its slots (R73). -/
def Instr.header : Instr → Header
  | .class0F8 ss di c => c.header 0#4 ss di
  | .class1F16Memext ss c _ => c.header 1#4 ss 3#2
  | .class1F16Imm64 c _ => c.header 1#4 3#2 1#2
  | .class1F8Regreg ss c => c.header 1#4 ss 0#2
  | .class1F8Mem ss c => c.header 1#4 ss 2#2
  | .class1F8Imm8 c => c.header 1#4 0#2 1#2
  | .class1F8Imm16 c => c.header 1#4 1#2 1#2
  | .class1F8Imm32 c => c.header 1#4 2#2 1#2
  | .class1F8Imm64 c => c.header 1#4 3#2 1#2
  | .class1F16Regidx c _ => c.header 1#4 3#2 0#2
  | .class2F16Memext ss c _ => c.header 2#4 ss 3#2
  | .class2F16Imm64 c _ => c.header 2#4 3#2 1#2
  | .class2F8Regreg ss c => c.header 2#4 ss 0#2
  | .class2F8Mem ss c => c.header 2#4 ss 2#2
  | .class2F8Imm8 c => c.header 2#4 0#2 1#2
  | .class2F8Imm16 c => c.header 2#4 1#2 1#2
  | .class2F8Imm32 c => c.header 2#4 2#2 1#2
  | .class2F8Imm64 c => c.header 2#4 3#2 1#2
  | .class2F16Regidx c _ => c.header 2#4 3#2 0#2
  | .class3F8 ss di c => c.header 3#4 ss di
  | .class4F8 ss di c => c.header 4#4 ss di
  | .class5F8 ss di c => c.header 5#4 ss di
  | .class6F8 ss di c => c.header 6#4 ss di
  | .class7F8 ss di c => c.header 7#4 ss di
  | .unknownClass cls ss di c => c.header cls ss di

/-- The slots of an instruction. -/
def Instr.slots : Instr → Slots
  | .class0F8 _ _ c | .class3F8 _ _ c | .class4F8 _ _ c | .class5F8 _ _ c | .class6F8 _ _ c | .class7F8 _ _ c => c
  | .class1F16Memext _ c _ | .class2F16Memext _ c _ => c
  | .class1F16Imm64 c _ | .class2F16Imm64 c _ | .class1F16Regidx c _ | .class2F16Regidx c _ => c
  | .class1F8Regreg _ c | .class2F8Regreg _ c | .class1F8Mem _ c | .class2F8Mem _ c => c
  | .class1F8Imm8 c | .class1F8Imm16 c | .class1F8Imm32 c | .class1F8Imm64 c => c
  | .class2F8Imm8 c | .class2F8Imm16 c | .class2F8Imm32 c | .class2F8Imm64 c => c
  | .unknownClass _ _ _ c => c

/-- The 8-byte field of an instruction, in the 16-byte rows (R61, R71). -/
def Instr.ext64 : Instr → Option Word
  | .class1F16Memext _ _ e | .class2F16Memext _ _ e => some e
  | .class1F16Imm64 _ e | .class2F16Imm64 _ e | .class1F16Regidx _ e | .class2F16Regidx _ e => some e
  | .class0F8 _ _ _ | .class3F8 _ _ _ | .class4F8 _ _ _ | .class5F8 _ _ _ | .class6F8 _ _ _ | .class7F8 _ _ _ => none
  | .class1F8Regreg _ _ | .class2F8Regreg _ _ | .class1F8Mem _ _ | .class2F8Mem _ _ => none
  | .class1F8Imm8 _ | .class1F8Imm16 _ | .class1F8Imm32 _ | .class1F8Imm64 _ => none
  | .class2F8Imm8 _ | .class2F8Imm16 _ | .class2F8Imm32 _ | .class2F8Imm64 _ => none
  | .unknownClass _ _ _ _ => none

/-- The format of an instruction whose 8-byte field is `ext` (R60, R61). -/
def formatOf (ext : Option Word) : Format := if ext.isSome then .f16 else .f8

/-- The format of an instruction: F16 exactly in the rows with the 8-byte field. -/
def Instr.format (i : Instr) : Format := formatOf i.ext64

/-- The bytes of a field tuple, a displacement and an 8-byte field (R113). -/
def encodeBytes (order : PayloadOrder) (h : Header) (d : BitVec 32) (ext : Option Word) : List Byte :=
  h.bytes ++ bytesOf order 4 d.toNat ++
    match ext with
    | some e => bytesOf order 8 e.toNat
    | none => []

/-- The bytes of an instruction (R60, R61, R113). -/
def encode (cfg : Config) (i : Instr) : List Byte :=
  encodeBytes cfg.payloadOrder i.header i.slots.disp32 i.ext64

/-- `encode(t, disp32, ext)` at the codec service port (R113): an `ext` that does not agree with the length has no
encoding, the refusal of R113. -/
def encodeTuple (cfg : Config) (h : Header) (d : BitVec 32) (ext : Option Word) : Option (List Byte) :=
  if frameLength cfg.frameRule h.bytes = formatOf ext then some (encodeBytes cfg.payloadOrder h d ext) else none

/-! ### The opcode table -/

/-- A row of the opcode table over the header `H = (B[0] << 8) | B[1]` (R80). -/
structure OpcodeRow where
  label : String
  pattern : BitVec 16
  mask    : BitVec 16
  format  : Format
  deriving DecidableEq, Repr

/-- The rows of one class that has both formats (R73). -/
def longClassRows (c : BitVec 4) (memext imm64 regreg mem imm8 imm16 imm32 : String) : List OpcodeRow :=
  let p : BitVec 16 := c.setWidth 16 <<< 12
  [⟨memext, p ||| 0x000C#16, 0xF00C#16, .f16⟩, ⟨imm64, p ||| 0x00C4#16, 0xF0CC#16, .f16⟩,
   ⟨regreg, p ||| 0x0000#16, 0xF00C#16, .f8⟩, ⟨mem, p ||| 0x0008#16, 0xF00C#16, .f8⟩,
   ⟨imm8, p ||| 0x0004#16, 0xF0CC#16, .f8⟩, ⟨imm16, p ||| 0x0044#16, 0xF0CC#16, .f8⟩,
   ⟨imm32, p ||| 0x0084#16, 0xF0CC#16, .f8⟩]

/-- The opcode table, written for `FRAME_RULE = IMM_BIT` (R73, R80). -/
def opcodeTable : List OpcodeRow :=
  [⟨"CLASS0.F8", 0x0000#16, 0xF000#16, .f8⟩] ++
  longClassRows 1#4 "CLASS1.F16.MEMEXT" "CLASS1.F16.IMM64" "CLASS1.F8.REGREG" "CLASS1.F8.MEM" "CLASS1.F8.IMM8"
    "CLASS1.F8.IMM16" "CLASS1.F8.IMM32" ++
  longClassRows 2#4 "CLASS2.F16.MEMEXT" "CLASS2.F16.IMM64" "CLASS2.F8.REGREG" "CLASS2.F8.MEM" "CLASS2.F8.IMM8"
    "CLASS2.F8.IMM16" "CLASS2.F8.IMM32" ++
  [⟨"CLASS3.F8", 0x3000#16, 0xF000#16, .f8⟩, ⟨"CLASS4.F8", 0x4000#16, 0xF000#16, .f8⟩,
   ⟨"CLASS5.F8", 0x5000#16, 0xF000#16, .f8⟩, ⟨"CLASS6.F8", 0x6000#16, 0xF000#16, .f8⟩,
   ⟨"CLASS7.F8", 0x7000#16, 0xF000#16, .f8⟩, ⟨"UNKNOWN_CLASS", 0x8000#16, 0x8000#16, .f8⟩]

/-- The header word `H = (B[0] << 8) | B[1]` of R80. -/
def headerWord (B : List Byte) : BitVec 16 := byteAt B 0 ++ byteAt B 1

/-- Row `r` is the row of the header `H` (R80). -/
def OpcodeRow.isRowOf (r : OpcodeRow) (H : BitVec 16) : Bool := H &&& r.mask == r.pattern

/-- The label of the row an instruction's header matches. The shapes of R154 carry the label of the row that their
header has under `IMM_BIT`. -/
def Instr.mnemonic : Instr → String
  | .class0F8 _ _ _ => "CLASS0.F8"
  | .class1F16Memext _ _ _ => "CLASS1.F16.MEMEXT"
  | .class1F16Imm64 _ _ => "CLASS1.F16.IMM64"
  | .class1F8Regreg _ _ => "CLASS1.F8.REGREG"
  | .class1F8Mem _ _ => "CLASS1.F8.MEM"
  | .class1F8Imm8 _ => "CLASS1.F8.IMM8"
  | .class1F8Imm16 _ => "CLASS1.F8.IMM16"
  | .class1F8Imm32 _ => "CLASS1.F8.IMM32"
  | .class1F8Imm64 _ => "CLASS1.F16.IMM64"
  | .class1F16Regidx _ _ => "CLASS1.F8.REGREG"
  | .class2F16Memext _ _ _ => "CLASS2.F16.MEMEXT"
  | .class2F16Imm64 _ _ => "CLASS2.F16.IMM64"
  | .class2F8Regreg _ _ => "CLASS2.F8.REGREG"
  | .class2F8Mem _ _ => "CLASS2.F8.MEM"
  | .class2F8Imm8 _ => "CLASS2.F8.IMM8"
  | .class2F8Imm16 _ => "CLASS2.F8.IMM16"
  | .class2F8Imm32 _ => "CLASS2.F8.IMM32"
  | .class2F8Imm64 _ => "CLASS2.F16.IMM64"
  | .class2F16Regidx _ _ => "CLASS2.F8.REGREG"
  | .class3F8 _ _ _ => "CLASS3.F8"
  | .class4F8 _ _ _ => "CLASS4.F8"
  | .class5F8 _ _ _ => "CLASS5.F8"
  | .class6F8 _ _ _ => "CLASS6.F8"
  | .class7F8 _ _ _ => "CLASS7.F8"
  | .unknownClass _ _ _ _ => "UNKNOWN_CLASS"

/-! ### Words of the opcode table as bytes -/

/-- Byte k of an instruction given as one number in the table's numbering: 16-bit words, the first in bits 15..0, each
stored high byte first, as R80 writes `H = (B[0] << 8) | B[1]` (log 9). -/
def tableByte (v k : Nat) : Byte := BitVec.ofNat 8 (v >>> (16 * (k / 2) + 8 * (1 - k % 2)))

/-- The 16 bytes, the longest instruction, of a table word of `nbits` bits; every bit above `nbits` is 0. -/
def tableBytes (nbits w : Nat) : List Byte :=
  let v := w % 2 ^ nbits
  [tableByte v 0, tableByte v 1, tableByte v 2, tableByte v 3, tableByte v 4, tableByte v 5, tableByte v 6,
   tableByte v 7, tableByte v 8, tableByte v 9, tableByte v 10, tableByte v 11, tableByte v 12, tableByte v 13,
   tableByte v 14, tableByte v 15]

/-- The instruction the decoder of the standard instance reads from a table word. -/
def decodeTableWord (nbits w : Nat) : Option Instr :=
  match decode Config.standard (tableBytes nbits w) with
  | .ok (i, _) => some i
  | .error _ => none

end Sys2Proof
end

