-- ==== Sys2Proof/Machine/State.lean ====
section
/-! DEFINITION. The state of the machine: the transient decode instance (R21), the input ports and constants of the
instance (R31, R32, R36), and the external machine state the handlers act on (R25, R30); and the reasons a step can
stop. -/

namespace Sys2Proof.Machine

/-- Why a step stops with a fault. None is one of the block's four error kinds: those are next states in phase `ERROR`
(R226). -/
inductive Fault where
  /-- The memory store holds no byte at an address that is read (U16, log 8). Raised by every memory read. Safe: the
  hardware goes on with a byte the spec does not give. -/
  | unbackedByte (addr : Nat)
  deriving DecidableEq, Repr

/-- Why a step gives its request no meaning. -/
inductive Refusal where
  /-- An instruction that has no meaning in this model; raised by a refused arm of `exec` only. Safe. -/
  | notModelled (mnemonic : String)
  /-- A decode cycle asked for at `PROG_END` itself, which is a boundary where no instruction begins (R159, R229).
  Raised by `startCycle`. Safe. -/
  | atProgEnd
  /-- An access, an instruction or a boundary walk that would pass `2^64`, or a next request at `2^64` (R43, R24).
  Raised by memory accesses, by framing, by the walk and by a release. Safe. -/
  | addressWrap
  /-- A decode cycle before the program layout has supplied `PROG_START` and `PROG_END` (R35). Raised by `startCycle`.
  Safe. -/
  | layoutNotSupplied
  /-- A layout with `PROG_START > PROG_END`, or a program whose placed elements are no gap-free sequence of well-formed
  instructions (R31, R195, R253). Raised by `supplyLayout` and `loadProgram`, never by a step. Safe. -/
  | illFormedLayout
  /-- An effective address of an operand whose base or index is not 64 bits wide (R134 e). Raised by `EA`, never by a
  step. Safe. -/
  | narrowAddressRegister
  /-- An 8-byte value that does not agree with the length, at the encoder port (R113). Never raised by a step. Safe. -/
  | extDisagreesWithLength
  /-- A phase whose components are missing from the decode instance, in states that no run reaches (R21; the invariant
  `State.Inv` rules them out). Raised by `advance`. Safe. -/
  | brokenInstance
  deriving DecidableEq, Repr

/-- The decode instance of R21, with the sum `next_addr` (R24) and `class_sel` (R165) beside it; `State.ports` shows the
64-bit port (R32). A component is `none` until
the phase that sets it (R35). The fields record holds the twelve fields, `disp32` and `ext64`. -/
structure Instance where
  phase    : Phase
  addr     : Option Addr
  raw      : Option (List Byte)
  len      : Option Format
  nextAddr : Option NextAddr
  fields   : Option Fields
  classSel : BitVec 8
  operands : Option Bundle
  text     : Option Text
  err      : Option BlockError
  deriving DecidableEq, Repr

/-- No decode instance exists (R22, R35): phase `IDLE`, no component has a value. `class_sel` 0 is log 7. -/
def Instance.idle : Instance :=
  { phase := .idle, addr := none, raw := none, len := none, nextAddr := none, fields := none, classSel := 0#8,
    operands := none, text := none, err := none }

/-- The state of the machine. -/
structure State where
  /-- The constants of the instance (R36); no step writes them. -/
  config         : Config
  /-- `PROG_START` (R31). -/
  progStart      : Addr
  /-- `PROG_END` (R31). -/
  progEnd        : Addr
  /-- Whether the program layout has supplied the two boundaries (R35). -/
  layoutSupplied : Bool
  /-- The port `req_addr` (R32). -/
  reqAddr        : Addr
  /-- The port `req_terminal` (R32, R184). -/
  reqTerminal    : Terminal
  /-- Whether the driver goes on starting cycles (R191, R266, log 6). -/
  run            : RunStatus
  /-- The decode instance (R21). -/
  inst           : Instance
  /-- The external machine state: registers, memory, named successor (R25, R30, R190). -/
  machine        : MachineState
  deriving DecidableEq, Repr

/-- The external machine state at reset. DESIGN CHOICE (logs 7, 8): the spec gives no register value, no memory
contents and no successor (R251). -/
def resetMachine : MachineState :=
  { regs := Vector.replicate 16 0#64, mem := [], successor := 0#65 }

/-- The machine right after reset (R35, R250): phase `IDLE`, no instance, no error, no layout. The values of the ports,
of the run and of the external machine are DESIGN CHOICE (logs 1, 6, 7, 8). -/
def State.reset : State :=
  { config := Config.standard, progStart := 0#64, progEnd := 0#64, layoutSupplied := false, reqAddr := 0#64,
    reqTerminal := .execute, run := .running, inst := Instance.idle, machine := resetMachine }

/-- The result of an operation: a value, a fault of the model, or a refusal. -/
abbrev Res (α : Type) := Host.Outcome α Fault Refusal

end Sys2Proof.Machine
end

