-- ==== Sys2Proof/Machine/Flags.lean ====
section
/-! DEFINITION. Flags. The block has no status flags and no condition codes, and no operation writes one (R28); the
only flags are the instruction bits `bp` and `ip`, whose one use is here. -/

namespace Sys2Proof.Machine

/-- The base or index register of a memory operand: at the address width when its present flag is 1, else `ABSENT`
(R69, R129). -/
def flaggedRegister (flag : BitVec 1) (id : RegId) : Option RegisterOperand :=
  if flag = 1#1 then some { id := id, size := .w64 } else none

end Sys2Proof.Machine
end

