-- ==== Sys2Proof/Machine/Ops.lean ====
section
/-! DEFINITION. The named operations over memory, registers and the decode instance: `MemRead`, `MemWrite`, the
boundary walk and `check`, the register port, raising an error and releasing an instance, and what the driver does at
the ports. -/

namespace Sys2Proof.Machine

/-- Go on with the value of a result; a fault or a refusal ends there. -/
def andThen {α β : Type} (r : Res α) (f : α → Res β) : Res β :=
  match r with
  | .next a => f a
  | .fault e => .fault e
  | .refused e => .refused e

/-! ### Memory (R40 to R43) -/

/-- The byte at an address; `none` for a byte that nothing has written (log 8: no unlisted address has a value). -/
def readByte : Memory → Nat → Option Byte
  | [], _ => none
  | (k, b) :: m, a => if a = k then some b else readByte m a

/-- Store one byte, keeping the addresses strictly rising. -/
def writeByte : Memory → Nat → Byte → Memory
  | [], a, b => [(a, b)]
  | (k, c) :: m, a, b =>
    if a < k then (a, b) :: (k, c) :: m
    else if a = k then (a, b) :: m
    else (k, c) :: writeByte m a b

/-- The canonical form: addresses strictly rising, every one of them in the address space. -/
def Memory.wf (m : Memory) : Bool :=
  decide ((m.map Prod.fst).Pairwise (· < ·)) && m.all (fun c => decide (c.1 < addressSpace))

/-- The bytes at `a`, `a + 1`, …; the first one the store does not hold faults (U16). -/
def readSeq (m : Memory) (a : Nat) : Nat → Res (List Byte)
  | 0 => .next []
  | n + 1 =>
    match readByte m a with
    | none => .fault (.unbackedByte a)
    | some b => andThen (readSeq m (a + 1) n) (fun bs => .next (b :: bs))

/-- `MemRead(addr, n)` (R41); an access that would pass `2^64` is refused (R43). -/
def memRead (m : Memory) (a n : Nat) : Res (List Byte) :=
  if a + n > addressSpace then .refused .addressWrap else readSeq m a n

/-- Byte k of the sequence is stored at `a + k` (R42). -/
def writeSeq (m : Memory) (a : Nat) : List Byte → Memory
  | [] => m
  | b :: bs => writeSeq (writeByte m a b) (a + 1) bs

/-- `MemWrite(addr, n, v)` (R42); the block never calls it. A write that would pass `2^64` is refused. -/
def memWrite (m : Memory) (a : Nat) (bs : List Byte) : Res Memory :=
  if a + bs.length > addressSpace then .refused .addressWrap else .next (writeSeq m a bs)

/-! ### Registers (R25, R26) -/

/-- The register read port `x[i]`, the full 64-bit value, without side effect (R26). -/
def readReg (regs : Vector Word 16) (i : RegId) : Word := regs[i.toNat]

/-- A full-width register write, made by a handler only (R26: the block never writes a register). -/
def writeReg (regs : Vector Word 16) (i : RegId) (v : Word) : Vector Word 16 := regs.set i.toNat v

/-! ### The executor (R204) -/

/-- The register writes of an effect, in order. -/
def applyRegWrites (regs : Vector Word 16) : List (RegId × Word) → Vector Word 16
  | [] => regs
  | (i, v) :: ws => applyRegWrites (writeReg regs i v) ws

/-- The memory writes of an effect, in order. -/
def applyMemWrites (m : Memory) : List (Addr × Byte) → Memory
  | [] => m
  | (a, b) :: ws => applyMemWrites (writeByte m a.toNat b) ws

/-- The successor an effect leaves: the one it names, else the offered `next_addr` (R190). -/
def successorOf (e : Effect) (next : NextAddr) : NextAddr :=
  match e.successor with
  | some a => a.setWidth 65
  | none => next

/-- The machine after an effect. -/
def applyEffect (e : Effect) (next : NextAddr) (m : MachineState) : MachineState :=
  { regs := applyRegWrites m.regs e.regWrites, mem := applyMemWrites m.mem e.memWrites,
    successor := successorOf e next }

/-- `Exec[c](F, O, machine, next_addr)`, a machine state (R200, R204). -/
def runExec (role : ExtRole) (c : ClassId) (F : Fields) (O : Bundle) (m : MachineState) (next : NextAddr) :
    MachineState :=
  applyEffect (Config.execEffect role c F O m next) next m

/-! ### The boundary check (R156 to R161) -/

/-- The boundary walk of `check(q)` from the cursor `a`, as the loop of R158; a header that cannot be read, or a cursor
that would pass `2^64`, ends it (R43). The first number is fuel, one unit an instruction. -/
def walk (rule : FrameRule) (m : Memory) (q hi : Nat) : Nat → Nat → Res Bool
  | 0, _ => .next false
  | n + 1, a =>
    if a = q ∧ a ≤ hi then .next true
    else if a > q ∨ a ≥ hi then .next false
    else andThen (memRead m a (headerBytes rule)) fun B =>
      if a + (frameLength rule B).bytes > addressSpace then .refused .addressWrap
      else walk rule m q hi n (a + (frameLength rule B).bytes)

/-- `check(q)` (R158). Every length is at least 8, so this fuel reaches past `q`. -/
def check (rule : FrameRule) (m : Memory) (progStart progEnd q : Addr) : Res Bool :=
  walk rule m q.toNat progEnd.toNat ((q.toNat - progStart.toNat) / 8 + 2) progStart.toNat

/-- `check` of the address asked for, in a state. -/
def State.checkRequest (s : State) : Res Bool :=
  check s.config.frameRule s.machine.mem s.progStart s.progEnd s.reqAddr

/-! ### Errors: entry and return -/

/-- The 3-bit code of an error kind (R220). -/
def errorCode : BlockError → BitVec 3
  | .invalidRange _ _ => 1#3
  | .unknownOpcodeClass _ _ => 2#3
  | .misalignedAddress _ => 3#3
  | .unsupportedLayoutUpdate _ => 4#3

/-- The code on the port `err`: 0 when there is no error (R220). -/
def errCode (e : Option BlockError) : BitVec 3 :=
  match e with
  | none => 0#3
  | some k => errorCode k

/-- `raise E(info)` (R226): phase `ERROR`, the kind and info on `err`, `class_sel = 0`, no operands and no text. The
outputs set before stay. No register and no memory byte changes, no state is saved, and control goes nowhere. -/
def raiseError (e : BlockError) (s : State) : State :=
  { s with inst := { s.inst with phase := .error, classSel := 0#8, operands := none, text := none, err := some e } }

/-- What the run is after an executed cycle that names `successor`: at `PROG_END` it ends normally (R191, R266). -/
def runAfter (progEnd : Addr) (successor : NextAddr) (run : RunStatus) : RunStatus :=
  if successor = progEnd.setWidth 65 then .endedNormally else run

/-- The driver releases the instance: it ceases to exist (R181, R228). After an executed cycle the driver's next
request is the address the machine state names (R190), which must be an address, and at `PROG_END` the run ends. After
an error the run ends, and the driver has the signal (R191, R266, log 6). -/
def release (s : State) : Res State :=
  match s.inst.phase with
  | .executed =>
    if s.machine.successor.toNat ≥ addressSpace then .refused .addressWrap
    else .next { s with
      inst := Instance.idle, reqAddr := s.machine.successor.setWidth 64,
      run := runAfter s.progEnd s.machine.successor s.run }
  | .error => .next { s with inst := Instance.idle, run := .endedAbnormally s.inst.err }
  | .idle | .rawBytes | .framed | .fieldsDecoded | .operandsResolved | .disassembled =>
    .next { s with inst := Instance.idle }

/-! ### The driver's side of the ports -/

/-- The driver puts an address and a terminal on the request ports (R32, R184), also after a run has ended. An instance
it holds stays: this is how it asks for the execution of a disassembled one (R183). -/
def State.request (s : State) (addr : Addr) (terminal : Terminal) : State :=
  { s with reqAddr := addr, reqTerminal := terminal, run := .running }

/-- The driver starts a new cycle (R180, R228): it lets go of an instance it still holds, in whatever phase, and asks
for a cycle. The held instance names no successor and ends no run: only what the new cycle does counts. -/
def State.startAt (s : State) (addr : Addr) (terminal : Terminal) : State :=
  { s.request addr terminal with inst := Instance.idle }

/-- The driver starts a run: it starts an executed cycle at `PROG_START` (R266). -/
def State.startRun (s : State) : State := s.startAt s.progStart .execute

/-- The program layout supplies `PROG_START` and `PROG_END`, with `PROG_START <= PROG_END` (R31, R253). -/
def supplyLayout (progStart progEnd : Addr) (s : State) : Res State :=
  if progStart ≤ progEnd then
    .next { s with progStart := progStart, progEnd := progEnd, layoutSupplied := true }
  else .refused .illFormedLayout

/-- A store made from outside the block, as a testbench or an executed store makes it (R42, R54). -/
def State.memWrite (s : State) (a : Nat) (bs : List Byte) : Res State :=
  andThen (Machine.memWrite s.machine.mem a bs) fun m => .next { s with machine := { s.machine with mem := m } }

/-- A register set from outside the block. -/
def State.setReg (s : State) (i : RegId) (v : Word) : State :=
  { s with machine := { s.machine with regs := writeReg s.machine.regs i v } }

/-- The byte of memory at an address, in a state. -/
def State.byte (s : State) (a : Nat) : Option Byte := readByte s.machine.mem a

/-- The register `x[i]`, in a state. -/
def State.reg (s : State) (i : RegId) : Word := readReg s.machine.regs i

end Sys2Proof.Machine
end

