-- ==== Sys2Proof/Machine/Operands.lean ====
section
/-! DEFINITION. The addressing-operand unit: the operand bundle (R126 to R132), the effective address (R133), relocation
(R135), the text of operands (R138 to R142) and the disassembly line (R203). -/

namespace Sys2Proof.Machine

/-! ### Codes to values -/

/-- `W(code)`, the width a size code selects (R66, R130). -/
def widthOf (code : BitVec 2) : Width :=
  if code = 0#2 then .w8 else if code = 1#2 then .w16 else if code = 2#2 then .w32 else .w64

/-- The scale factor `2^s` of a scale code (R125). -/
def scaleFactor (code : BitVec 2) : Int := 2 ^ code.toNat

/-! ### From fields to operands -/

/-- The destination register of every instruction (R126). -/
def dstOperand (h : Header) : RegisterOperand := { id := h.dest, size := widthOf h.ds }

/-- The source register of a reg-reg instruction (R127); `bp` is not consulted. -/
def srcOperand (h : Header) : Option RegisterOperand :=
  if h.di = 0#2 then some { id := h.base, size := widthOf h.ss } else none

/-- The size code of a memory operand, by `MEM_SIZE_SEL` (R129). -/
def memSizeCode (sel : MemSizeSel) (h : Header) : BitVec 2 :=
  match sel with
  | .ss => h.ss
  | .ds => h.ds

/-- The displacement of a decoded operand, `sext_64(disp32)`, always present (R131). -/
def displacementOf (d : BitVec 32) : Word := d.signExtend 64

/-- The memory operand, when `di` is 2 or 3 (R129). -/
def memOperand (sel : MemSizeSel) (h : Header) (d : BitVec 32) : Option MemoryOperand :=
  if h.di = 2#2 ∨ h.di = 3#2 then
    some { base := flaggedRegister h.bp h.base, index := flaggedRegister h.ip h.index, scale := scaleFactor h.scale,
           displacement := some (displacementOf d), size := widthOf (memSizeCode sel h) }
  else none

/-- The immediate, when `di = 1`: the 8-byte field in F16, `sext_64(disp32)` in F8 (R132). -/
def immOperand (F : Fields) : Option Word :=
  if F.hdr.di = 1#2 then
    match F.ext64 with
    | some e => some e
    | none => some (F.disp32.signExtend 64)
  else none

/-- The extended value, when `di = 3` and the 8-byte field is there (R132). -/
def extOperand (F : Fields) : Option Word := if F.hdr.di = 3#2 then F.ext64 else none

/-- The operand bundle of an instruction (R128). -/
def resolveOperands (cfg : Config) (F : Fields) : Bundle :=
  { kind := F.hdr.di, dst := dstOperand F.hdr, src := srcOperand F.hdr, imm := immOperand F,
    memOp := memOperand cfg.memSizeSel F.hdr F.disp32, ext := extOperand F, memvar := F.hdr.mem }

/-! ### The operands a handler lists (R202) -/

/-- The register id a choice names. -/
def idOf (F : Fields) : IdChoice → RegId
  | .dest => F.hdr.dest
  | .base => F.hdr.base
  | .index => F.hdr.index

/-- The width a choice names. -/
def chosenWidth (F : Fields) : WidthChoice → Width
  | .ss => widthOf F.hdr.ss
  | .ds => widthOf F.hdr.ds
  | .full => .w64

/-- The value a choice names; `none` where the block delivered none. -/
def valueOf (F : Fields) (O : Bundle) : ValueChoice → Option Word
  | .imm => O.imm
  | .ext => F.ext64
  | .displacement => some (displacementOf F.disp32)

/-- `RegisterOperand` of delivered parts (R121). -/
def builtRegister (F : Fields) (c : IdChoice × WidthChoice) : RegisterOperand :=
  { id := idOf F c.1, size := chosenWidth F c.2 }

/-- The operand a choice names; `none` where the block delivered no such member or value. -/
def operandOf (F : Fields) (O : Bundle) : OperandChoice → Option Operand
  | .dst => some (.reg O.dst)
  | .src => O.src.map .reg
  | .memOp => O.memOp.map .mem
  | .imm v w => (valueOf F O v).map fun x => .imm x (chosenWidth F w)
  | .builtReg i w => some (.reg (builtRegister F (i, w)))
  | .builtMem base index displacement size =>
    some (.mem { base := base.map (builtRegister F), index := index.map (builtRegister F),
                 scale := scaleFactor F.hdr.scale, displacement := displacement.bind (valueOf F O),
                 size := chosenWidth F size })

/-- `OperandList[c](F, O)` (R200, R202): the operands of the handler's choices. -/
def handlerOperands (role : ExtRole) (c : ClassId) (F : Fields) (O : Bundle) : List Operand :=
  (Config.operandList role c F O).filterMap (operandOf F O)

/-! ### Effective address and relocation -/

/-- A present register of a width below the address width (R134 e). -/
def isNarrow (r : Option RegisterOperand) : Bool :=
  match r with
  | some o => o.size != .w64
  | none => false

/-- The value of an optional register term of an address: 0 when absent (R133). -/
def registerTerm (regs : Vector Word 16) (r : Option RegisterOperand) : Word :=
  match r with
  | some o => readReg regs o.id
  | none => 0#64

/-- `EA(m) = (b + i * scale + d) mod 2^64` (R133). A narrow base or index has no effective address (R134 e). -/
def effectiveAddress (m : MemoryOperand) (regs : Vector Word 16) : Res Addr :=
  if isNarrow m.base || isNarrow m.index then .refused .narrowAddressRegister
  else .next (registerTerm regs m.base + registerTerm regs m.index * BitVec.ofInt 64 m.scale +
    m.displacement.getD 0#64)

/-- `relocate(m, delta)` (R135): the displacement, where present, moves by `delta` modulo `2^64`. -/
def relocate (m : MemoryOperand) (delta : Word) : MemoryOperand :=
  { m with displacement := m.displacement.map (· + delta) }

/-! ### Text -/

/-- A hexadecimal digit, lower case (R140). -/
def hexDigit (n : Nat) : Char :=
  ['0', '1', '2', '3', '4', '5', '6', '7', '8', '9', 'a', 'b', 'c', 'd', 'e', 'f'].getD n '0'

/-- The `k` low hexadecimal digits of `n`, most significant first. -/
def hexDigits : Nat → Nat → Text
  | 0, _ => []
  | k + 1, n => hexDigits k (n / 16) ++ [hexDigit (n % 16)]

/-- `hexdisp(d)` (R140): eight digits when `d` fits 32 signed bits, else sixteen. -/
def hexdisp (d : Word) : Text :=
  if -2147483648 ≤ d.toInt ∧ d.toInt < 2147483648 then '0' :: 'x' :: hexDigits 8 (d.toNat % 4294967296)
  else '0' :: 'x' :: hexDigits 16 d.toNat

/-- The decimal digits of `n` before `acc`; the first number is fuel. -/
def decimalFrom : Nat → Nat → Text → Text
  | 0, _, acc => acc
  | k + 1, n, acc => if n < 10 then hexDigit n :: acc else decimalFrom k (n / 10) (hexDigit (n % 10) :: acc)

/-- `decimal(n)`, base ten without sign or padding (R139). A negative scale, which only the service port can present,
renders as its magnitude (log 10). -/
def decimal (n : Int) : Text := decimalFrom (n.natAbs + 1) n.natAbs []

/-- The base slot of a memory operand: empty when absent (R139). -/
def renderBase (regName : RegId → Width → Text) (r : Option RegisterOperand) : Text :=
  match r with
  | some o => regName o.id o.size
  | none => []

/-- The index and scale group: omitted when no index is present (R139). -/
def renderIndex (regName : RegId → Width → Text) (r : Option RegisterOperand) (scale : Int) : Text :=
  match r with
  | some o => [',', ' '] ++ regName o.id o.size ++ [',', ' '] ++ decimal scale
  | none => []

/-- `render(MemoryOperand)` under a name resolver (R139, R141). -/
def renderMemWith (regName : RegId → Width → Text) (m : MemoryOperand) : Text :=
  (match m.displacement with
    | some d => hexdisp d
    | none => []) ++
  ['('] ++ renderBase regName m.base ++ renderIndex regName m.index m.scale ++ [')']

/-- `render` of any operand under a name resolver and an immediate printer (R138, R139, R142). -/
def renderWith (regName : RegId → Width → Text) (renderImm : Word → Width → Text) : Operand → Text
  | .reg r => regName r.id r.size
  | .mem m => renderMemWith regName m
  | .imm v w => renderImm v w

/-- The operands after the first, each after a comma and one space (R203). -/
def operandTail (render : Operand → Text) : List Operand → Text
  | [] => []
  | o :: os => [',', ' '] ++ render o ++ operandTail render os

/-- The disassembly line of a mnemonic and an operand list (R203). -/
def lineOf (render : Operand → Text) (mnemonic : Text) : List Operand → Text
  | [] => mnemonic
  | o :: os => mnemonic ++ [' '] ++ render o ++ operandTail render os

/-- `render` of the block, with the external resolver and printer (R138, R139, R142). -/
def render (o : Operand) : Text := renderWith Config.regName Config.renderImm o

/-- `Format[c](F, O)` (R203). -/
def formatLine (role : ExtRole) (c : ClassId) (F : Fields) (O : Bundle) : Text :=
  lineOf render (Config.mnemonic c F.hdr.typ) (handlerOperands role c F O)

end Sys2Proof.Machine
end

