-- ==== Sys2Proof/Machine/Cycle.lean ====
section
/-! DEFINITION. The decode cycle: the transitions of the state machine (R181), one definition each, the shared body of
the class meanings (R210 to R217), the cycle of R199, and what one step does in each phase. -/

namespace Sys2Proof.Machine

/-- `next_addr = addr + len` (R24). -/
def nextAddrOf (addr : Addr) (len : Format) : NextAddr := addr.setWidth 65 + BitVec.ofNat 65 len.bytes

/-- `addr + len` would pass `2^64` (R24, R43). -/
def passesTop (addr : Addr) (len : Format) : Bool := decide (addr.toNat + len.bytes > addressSpace)

/-- The class number that selects a handler (R165). -/
def classOf (F : Fields) : ClassId := F.hdr.cls.setWidth 3

/-! ### What each phase leaves in the instance (R21, R181) -/

/-- `RAW_BYTES`: the address is latched and the first 8 bytes are there. -/
def Instance.atRawBytes (a : Addr) (B : List Byte) : Instance :=
  { Instance.idle with phase := .rawBytes, addr := some a, raw := some B }

/-- `FRAMED`: the length, all the bytes and `next_addr` are there. -/
def Instance.atFramed (a : Addr) (B : List Byte) (len : Format) : Instance :=
  { Instance.atRawBytes a B with phase := .framed, len := some len, nextAddr := some (nextAddrOf a len) }

/-- `FIELDS_DECODED`: the fields are there. -/
def Instance.atFieldsDecoded (a : Addr) (B : List Byte) (len : Format) (F : Fields) : Instance :=
  { Instance.atFramed a B len with phase := .fieldsDecoded, fields := some F }

/-- `OPERANDS_RESOLVED`: `class_sel <- 1 << class` and the bundle (R165, R128). -/
def resolved (c : ClassId) (cfg : Config) (F : Fields) (d : Instance) : Instance :=
  { d with phase := .operandsResolved, classSel := 1#8 <<< c.toNat, operands := some (resolveOperands cfg F) }

/-- `DISASSEMBLED`: the text; no machine state changes (R182). -/
def disassembled (c : ClassId) (F : Fields) (O : Bundle) (s : State) : State :=
  { s with inst := { s.inst with phase := .disassembled, text := some (formatLine s.config.extRole c F O) } }

/-- `EXECUTED`: the machine state `Exec[c]` returns, and no text (R182, R204). -/
def executed (c : ClassId) (F : Fields) (O : Bundle) (next : NextAddr) (s : State) : State :=
  { s with inst := { s.inst with phase := .executed, text := none },
           machine := runExec s.config.extRole c F O s.machine next }

/-- The terminal the driver asked for (R184). -/
def toTerminal (c : ClassId) (F : Fields) (O : Bundle) (next : NextAddr) (s : State) : State :=
  match s.reqTerminal with
  | .disassemble => disassembled c F O s
  | .execute => executed c F O next s

/-! ### The body of the class meanings -/

/-- The decoded fields of an instruction at an address (R163). -/
def fieldsAt (a : Addr) (h : Header) (d : BitVec 32) (ext : Option Word) : Fields :=
  { hdr := h, disp32 := d, ext64 := ext, len := formatOf ext, addr := a }

/-- The state in which an instruction's fields are decoded at the address asked for. -/
def presented (h : Header) (d : BitVec 32) (ext : Option Word) (s : State) : State :=
  let B := encodeBytes s.config.payloadOrder h d ext
  { s with inst := Instance.atFieldsDecoded s.reqAddr B (formatOf ext) (fieldsAt s.reqAddr h d ext) }

/-- The cycle of an instruction of class `c` (R210 to R217): length, `next_addr` and fields, then the handler select and
the operands, then the terminal. -/
def classCycle (c : ClassId) (h : Header) (d : BitVec 32) (ext : Option Word) (s : State) : Res State :=
  if passesTop s.reqAddr (formatOf ext) then .refused .addressWrap
  else
    let F := fieldsAt s.reqAddr h d ext
    let s1 := presented h d ext s
    .next (toTerminal c F (resolveOperands s.config F) (nextAddrOf s.reqAddr (formatOf ext))
      { s1 with inst := resolved c s.config F s1.inst })

/-- The cycle of an instruction with no handler (R166): the fields decode, then `UnknownOpcodeClass` is raised, whatever
terminal was asked for. -/
def unknownClassCycle (cls : BitVec 4) (h : Header) (d : BitVec 32) (s : State) : Res State :=
  if passesTop s.reqAddr .f8 then .refused .addressWrap
  else .next (raiseError (.unknownOpcodeClass cls s.reqAddr) (presented h d none s))

/-! ### The transitions of R181 -/

/-- `IDLE` to `RAW_BYTES` or `ERROR`: the boundary check before any fetch (R159, R225), then the first 8 bytes (R44). -/
def startCycle (s : State) : Res State :=
  if s.layoutSupplied = false then .refused .layoutNotSupplied
  else andThen s.checkRequest fun ok =>
    if ok = false then .next (raiseError (.misalignedAddress s.reqAddr) { s with inst := Instance.idle })
    else if s.progEnd ≤ s.reqAddr then .refused .atProgEnd
    else andThen (memRead s.machine.mem s.reqAddr.toNat 8) fun B =>
      .next { s with inst := Instance.atRawBytes s.reqAddr B }

/-- The bytes of the instruction whose first 8 are `B`: 8 more when the length is 16 (R44). -/
def restOfInstr (m : Memory) (a : Addr) (B : List Byte) (len : Format) : Res (List Byte) :=
  match len with
  | .f8 => .next B
  | .f16 => andThen (memRead m (a.toNat + 8) 8) fun B' => .next (B ++ B')

/-- `RAW_BYTES` to `FRAMED`. -/
def frameTransition (s : State) : Res State :=
  match s.inst.addr, s.inst.raw with
  | some a, some B =>
    let len := frameLength s.config.frameRule B
    if passesTop a len then .refused .addressWrap
    else andThen (restOfInstr s.machine.mem a B len) fun B' =>
      .next { s with inst := Instance.atFramed a B' len }
  | _, _ => .refused .brokenInstance

/-- `FRAMED` to `FIELDS_DECODED`. -/
def decodeTransition (s : State) : Res State :=
  match s.inst.addr, s.inst.raw, s.inst.len with
  | some a, some B, some len =>
    .next { s with inst := { s.inst with
      phase := .fieldsDecoded, fields := some (decodeFields s.config.payloadOrder B len a) } }
  | _, _, _ => .refused .brokenInstance

/-- `FIELDS_DECODED` to `OPERANDS_RESOLVED`, or to `ERROR` for a class with no handler (R165, R166). -/
def dispatchTransition (s : State) : Res State :=
  match s.inst.fields with
  | some F =>
    if F.hdr.cls < 8#4 then .next { s with inst := resolved (classOf F) s.config F s.inst }
    else .next (raiseError (.unknownOpcodeClass F.hdr.cls F.addr) s)
  | none => .refused .brokenInstance

/-- `OPERANDS_RESOLVED` to the terminal asked for. -/
def terminalTransition (s : State) : Res State :=
  match s.inst.fields, s.inst.operands, s.inst.nextAddr with
  | some F, some O, some next => .next (toTerminal (classOf F) F O next s)
  | _, _, _ => .refused .brokenInstance

/-- `DISASSEMBLED` to `EXECUTED`, for the same instance: the fields and the bundle resolved before (R183). -/
def executeTransition (s : State) : Res State :=
  match s.inst.fields, s.inst.operands, s.inst.nextAddr with
  | some F, some O, some next => .next (executed (classOf F) F O next s)
  | _, _, _ => .refused .brokenInstance

/-- The driver's move in `IDLE`: to start the cycle asked for, while its run goes on (R191). -/
def whileRunning (start : State → Res State) (s : State) : Res State :=
  match s.run with
  | .running => start s
  | .endedNormally | .endedAbnormally _ => .next s

/-- One transition of the state machine (R181). After `DISASSEMBLED` the driver asks for execution of the same instance
by holding `req_terminal = EXECUTE`, else it releases (log 6). -/
def advance (s : State) : Res State :=
  match s.inst.phase with
  | .idle => whileRunning startCycle s
  | .rawBytes => frameTransition s
  | .framed => decodeTransition s
  | .fieldsDecoded => dispatchTransition s
  | .operandsResolved => terminalTransition s
  | .disassembled =>
    match s.reqTerminal with
    | .execute => executeTransition s
    | .disassemble => release s
  | .executed | .error => release s

/-- A cycle is over: a terminal state or `ERROR` (R180). -/
def Phase.isEnd : Phase → Bool
  | .disassembled | .executed | .error => true
  | .idle | .rawBytes | .framed | .fieldsDecoded | .operandsResolved => false

/-- Transitions until the cycle is over; the number is fuel, one unit a transition. -/
def completeCycle : Nat → State → Res State
  | 0, s => .next s
  | n + 1, s => if Phase.isEnd s.inst.phase then .next s else andThen (advance s) (completeCycle n)

/-! ### The whole cycle as one step (R199, R265) -/

/-- The bytes of the instruction at the address asked for (R44). -/
def fetchInstr (s : State) : Res (List Byte) :=
  andThen (memRead s.machine.mem s.reqAddr.toNat 8) fun B =>
    if passesTop s.reqAddr (frameLength s.config.frameRule B) then .refused .addressWrap
    else restOfInstr s.machine.mem s.reqAddr B (frameLength s.config.frameRule B)

/-- `decodeCycle` as R199 writes it, with the meanings of the instructions given. The bytes fetched always decode
(R77), so the last line answers nothing in any run. -/
def decodeCycleWith (meaning : Instr → State → Res State) (s : State) : Res State :=
  if s.layoutSupplied = false then .refused .layoutNotSupplied
  else andThen s.checkRequest fun ok =>
    if ok = false then .next (raiseError (.misalignedAddress s.reqAddr) { s with inst := Instance.idle })
    else if s.progEnd ≤ s.reqAddr then .refused .atProgEnd
    else andThen (fetchInstr s) fun B =>
      match decode s.config B with
      | .ok (i, _) => meaning i s
      | .error _ => .refused .brokenInstance

/-- One step with the meanings given: from `IDLE` a whole decode cycle while the run goes on (R180, R191, R265); inside
a cycle, which no run is found in between steps (R56), its remaining transitions; at a terminal or in `ERROR`, the
driver's move (R181). -/
def stepWith (meaning : Instr → State → Res State) (s : State) : Res State :=
  match s.inst.phase with
  | .idle => whileRunning (decodeCycleWith meaning) s
  | .rawBytes | .framed | .fieldsDecoded | .operandsResolved => completeCycle 4 s
  | .disassembled | .executed | .error => advance s

/-! ### Placing an instruction where the next step fetches -/

/-- The address the next step fetches at: the address asked for, unless the longest instruction would not fit below
`2^64` there. -/
def fetchPlace (s : State) : Addr := if s.reqAddr.toNat + 16 < addressSpace then s.reqAddr else 0#64

/-- The state whose next step fetches and runs the instruction at the front of `bs` (at most 16 bytes): the bytes
stored, the layout holding that one instruction, the request at it and no instance (log 9). -/
def placeInstr (s : State) (bs : List Byte) : State :=
  let a := fetchPlace s
  { s with
    progStart := a, progEnd := a + BitVec.ofNat 64 (frameLength s.config.frameRule bs).bytes, layoutSupplied := true,
    reqAddr := a, run := .running, inst := Instance.idle,
    machine := { s.machine with mem := writeSeq s.machine.mem a.toNat bs } }

end Sys2Proof.Machine
end

