-- ==== Sys2Proof/Machine/Class1.lean ====
section
/-! DEFINITION. The meanings of class 1, which has both formats (R211); `class_sel = 0x02`, `Format[1]`, `Exec[1]`. -/

namespace Sys2Proof.Machine

/-- `CLASS1.F16.MEMEXT` (R211): `di = 3`, 16 bytes; the bundle has a memory operand and `ext`. -/
def execClass1F16Memext (ss : BitVec 2) (c : Slots) (ext64 : Word) (s : State) : Res State :=
  classCycle 1#3 (c.header 1#4 ss 3#2) c.disp32 (some ext64) s

/-- `CLASS1.F16.IMM64` (R211): `di = 1`, `ss = 3`, 16 bytes; `imm = ext64`. -/
def execClass1F16Imm64 (c : Slots) (ext64 : Word) (s : State) : Res State :=
  classCycle 1#3 (c.header 1#4 3#2 1#2) c.disp32 (some ext64) s

/-- `CLASS1.F8.REGREG` (R211): `di = 0`, 8 bytes; `src` and `dst`. -/
def execClass1F8Regreg (ss : BitVec 2) (c : Slots) (s : State) : Res State :=
  classCycle 1#3 (c.header 1#4 ss 0#2) c.disp32 none s

/-- `CLASS1.F8.MEM` (R211): `di = 2`, 8 bytes; a memory operand. -/
def execClass1F8Mem (ss : BitVec 2) (c : Slots) (s : State) : Res State :=
  classCycle 1#3 (c.header 1#4 ss 2#2) c.disp32 none s

/-- `CLASS1.F8.IMM8` (R211): `di = 1`, `ss = 0`, 8 bytes; `imm = sext_64(disp32)`. -/
def execClass1F8Imm8 (c : Slots) (s : State) : Res State :=
  classCycle 1#3 (c.header 1#4 0#2 1#2) c.disp32 none s

/-- `CLASS1.F8.IMM16` (R211): `di = 1`, `ss = 1`, 8 bytes; `imm = sext_64(disp32)`. -/
def execClass1F8Imm16 (c : Slots) (s : State) : Res State :=
  classCycle 1#3 (c.header 1#4 1#2 1#2) c.disp32 none s

/-- `CLASS1.F8.IMM32` (R211): `di = 1`, `ss = 2`, 8 bytes; `imm = sext_64(disp32)`. -/
def execClass1F8Imm32 (c : Slots) (s : State) : Res State :=
  classCycle 1#3 (c.header 1#4 2#2 1#2) c.disp32 none s

/-- The header of `CLASS1.F16.IMM64` under `INDEX_PRESENT` (R154): 8 bytes; `imm = sext_64(disp32)` (R132). -/
def execClass1F8Imm64 (c : Slots) (s : State) : Res State :=
  classCycle 1#3 (c.header 1#4 3#2 1#2) c.disp32 none s

/-- The header of `CLASS1.F8.REGREG` with `ip = 1`, `ss = 3` under `INDEX_PRESENT` (R154): 16 bytes; `src` and `dst`,
and the 8-byte field in the fields only (R132). -/
def execClass1F16Regidx (c : Slots) (ext64 : Word) (s : State) : Res State :=
  classCycle 1#3 (c.header 1#4 3#2 0#2) c.disp32 (some ext64) s

end Sys2Proof.Machine
end

