-- ==== Sys2Proof/Machine/Class2.lean ====
section
/-! DEFINITION. The meanings of class 2, which has both formats (R212); `class_sel = 0x04`, `Format[2]`, `Exec[2]`. -/

namespace Sys2Proof.Machine

/-- `CLASS2.F16.MEMEXT` (R212): `di = 3`, 16 bytes; the bundle has a memory operand and `ext`. -/
def execClass2F16Memext (ss : BitVec 2) (c : Slots) (ext64 : Word) (s : State) : Res State :=
  classCycle 2#3 (c.header 2#4 ss 3#2) c.disp32 (some ext64) s

/-- `CLASS2.F16.IMM64` (R212): `di = 1`, `ss = 3`, 16 bytes; `imm = ext64`. -/
def execClass2F16Imm64 (c : Slots) (ext64 : Word) (s : State) : Res State :=
  classCycle 2#3 (c.header 2#4 3#2 1#2) c.disp32 (some ext64) s

/-- `CLASS2.F8.REGREG` (R212): `di = 0`, 8 bytes; `src` and `dst`. -/
def execClass2F8Regreg (ss : BitVec 2) (c : Slots) (s : State) : Res State :=
  classCycle 2#3 (c.header 2#4 ss 0#2) c.disp32 none s

/-- `CLASS2.F8.MEM` (R212): `di = 2`, 8 bytes; a memory operand. -/
def execClass2F8Mem (ss : BitVec 2) (c : Slots) (s : State) : Res State :=
  classCycle 2#3 (c.header 2#4 ss 2#2) c.disp32 none s

/-- `CLASS2.F8.IMM8` (R212): `di = 1`, `ss = 0`, 8 bytes; `imm = sext_64(disp32)`. -/
def execClass2F8Imm8 (c : Slots) (s : State) : Res State :=
  classCycle 2#3 (c.header 2#4 0#2 1#2) c.disp32 none s

/-- `CLASS2.F8.IMM16` (R212): `di = 1`, `ss = 1`, 8 bytes; `imm = sext_64(disp32)`. -/
def execClass2F8Imm16 (c : Slots) (s : State) : Res State :=
  classCycle 2#3 (c.header 2#4 1#2 1#2) c.disp32 none s

/-- `CLASS2.F8.IMM32` (R212): `di = 1`, `ss = 2`, 8 bytes; `imm = sext_64(disp32)`. -/
def execClass2F8Imm32 (c : Slots) (s : State) : Res State :=
  classCycle 2#3 (c.header 2#4 2#2 1#2) c.disp32 none s

/-- The header of `CLASS2.F16.IMM64` under `INDEX_PRESENT` (R154): 8 bytes; `imm = sext_64(disp32)` (R132). -/
def execClass2F8Imm64 (c : Slots) (s : State) : Res State :=
  classCycle 2#3 (c.header 2#4 3#2 1#2) c.disp32 none s

/-- The header of `CLASS2.F8.REGREG` with `ip = 1`, `ss = 3` under `INDEX_PRESENT` (R154): 16 bytes; `src` and `dst`,
and the 8-byte field in the fields only (R132). -/
def execClass2F16Regidx (c : Slots) (ext64 : Word) (s : State) : Res State :=
  classCycle 2#3 (c.header 2#4 3#2 0#2) c.disp32 (some ext64) s

end Sys2Proof.Machine
end

