-- ==== Sys2Proof/Machine/ShortClasses.lean ====
section
/-! DEFINITION. The meanings of the classes with the 8-byte format only: class 0 and classes 3 to 7 (R210, R213 to
R217). -/

namespace Sys2Proof.Machine

/-- `CLASS0.F8` (R210): 8 bytes, `class_sel = 0x01`, `Format[0]` or `Exec[0]`. -/
def execClass0F8 (ss di : BitVec 2) (c : Slots) (s : State) : Res State :=
  classCycle 0#3 (c.header 0#4 ss di) c.disp32 none s

/-- `CLASS3.F8` (R213): 8 bytes, `class_sel = 0x08`, `Format[3]` or `Exec[3]`. -/
def execClass3F8 (ss di : BitVec 2) (c : Slots) (s : State) : Res State :=
  classCycle 3#3 (c.header 3#4 ss di) c.disp32 none s

/-- `CLASS4.F8` (R214): 8 bytes, `class_sel = 0x10`, `Format[4]` or `Exec[4]`. -/
def execClass4F8 (ss di : BitVec 2) (c : Slots) (s : State) : Res State :=
  classCycle 4#3 (c.header 4#4 ss di) c.disp32 none s

/-- `CLASS5.F8` (R215): 8 bytes, `class_sel = 0x20`, `Format[5]` or `Exec[5]`. -/
def execClass5F8 (ss di : BitVec 2) (c : Slots) (s : State) : Res State :=
  classCycle 5#3 (c.header 5#4 ss di) c.disp32 none s

/-- `CLASS6.F8` (R216): 8 bytes, `class_sel = 0x40`, `Format[6]` or `Exec[6]`. -/
def execClass6F8 (ss di : BitVec 2) (c : Slots) (s : State) : Res State :=
  classCycle 6#3 (c.header 6#4 ss di) c.disp32 none s

/-- `CLASS7.F8` (R217): 8 bytes, `class_sel = 0x80`, `Format[7]` or `Exec[7]`. -/
def execClass7F8 (ss di : BitVec 2) (c : Slots) (s : State) : Res State :=
  classCycle 7#3 (c.header 7#4 ss di) c.disp32 none s

end Sys2Proof.Machine
end

