-- ==== Sys2Proof/Machine/UnknownClass.lean ====
section
/-! DEFINITION. The meaning of the classes that have no handler (R166). -/

namespace Sys2Proof.Machine

/-- `UNKNOWN_CLASS` (R166, R222): the fields decode, then `UnknownOpcodeClass(class, addr)` is raised. -/
def execUnknownClass (cls : BitVec 4) (ss di : BitVec 2) (c : Slots) (s : State) : Res State :=
  unknownClassCycle cls (c.header cls ss di) c.disp32 s

end Sys2Proof.Machine
end

