-- ==== Sys2Proof/Machine/Dispatch.lean ====
section
/-! DEFINITION. The meaning of every instruction: one arm a constructor. -/

namespace Sys2Proof.Machine

def exec (i : Instr) (s : State) : Host.Outcome State Fault Refusal :=
  match i with
  | .class0F8 ss di c => Sys2Proof.Machine.execClass0F8 ss di c s
  | .class1F16Memext ss c ext64 => Sys2Proof.Machine.execClass1F16Memext ss c ext64 s
  | .class1F16Imm64 c ext64 => Sys2Proof.Machine.execClass1F16Imm64 c ext64 s
  | .class1F8Regreg ss c => Sys2Proof.Machine.execClass1F8Regreg ss c s
  | .class1F8Mem ss c => Sys2Proof.Machine.execClass1F8Mem ss c s
  | .class1F8Imm8 c => Sys2Proof.Machine.execClass1F8Imm8 c s
  | .class1F8Imm16 c => Sys2Proof.Machine.execClass1F8Imm16 c s
  | .class1F8Imm32 c => Sys2Proof.Machine.execClass1F8Imm32 c s
  | .class1F8Imm64 c => Sys2Proof.Machine.execClass1F8Imm64 c s
  | .class1F16Regidx c ext64 => Sys2Proof.Machine.execClass1F16Regidx c ext64 s
  | .class2F16Memext ss c ext64 => Sys2Proof.Machine.execClass2F16Memext ss c ext64 s
  | .class2F16Imm64 c ext64 => Sys2Proof.Machine.execClass2F16Imm64 c ext64 s
  | .class2F8Regreg ss c => Sys2Proof.Machine.execClass2F8Regreg ss c s
  | .class2F8Mem ss c => Sys2Proof.Machine.execClass2F8Mem ss c s
  | .class2F8Imm8 c => Sys2Proof.Machine.execClass2F8Imm8 c s
  | .class2F8Imm16 c => Sys2Proof.Machine.execClass2F8Imm16 c s
  | .class2F8Imm32 c => Sys2Proof.Machine.execClass2F8Imm32 c s
  | .class2F8Imm64 c => Sys2Proof.Machine.execClass2F8Imm64 c s
  | .class2F16Regidx c ext64 => Sys2Proof.Machine.execClass2F16Regidx c ext64 s
  | .class3F8 ss di c => Sys2Proof.Machine.execClass3F8 ss di c s
  | .class4F8 ss di c => Sys2Proof.Machine.execClass4F8 ss di c s
  | .class5F8 ss di c => Sys2Proof.Machine.execClass5F8 ss di c s
  | .class6F8 ss di c => Sys2Proof.Machine.execClass6F8 ss di c s
  | .class7F8 ss di c => Sys2Proof.Machine.execClass7F8 ss di c s
  | .unknownClass cls ss di c => Sys2Proof.Machine.execUnknownClass cls ss di c s

end Sys2Proof.Machine
end

