-- ==== Sys2Proof/Machine/Step.lean ====
section
/-! DEFINITION. One step of the machine, and the placing of an instruction where the next step fetches. -/

namespace Sys2Proof.Machine

/-- One step (R180, R265): a whole decode cycle from `IDLE`, or the driver's move after one. -/
def step (s : State) : Host.Outcome State Fault Refusal := stepWith exec s

/-- `s` with the instruction of a table word stored where its next step fetches (log 9). -/
def State.withFetchWord (s : State) (nbits w : Nat) : State := placeInstr s (tableBytes nbits w)

end Sys2Proof.Machine
end

