-- ==== Sys2Proof/Machine/Assembler.lean ====
section
/-! DEFINITION. The assembler-side contracts the source states (R192 to R196): software around the block, which the block
never executes (R5). They close the list of error kinds: `UnsupportedLayoutUpdate` is raised here and nowhere else. The
layout pass is tied to the block's program region by `loadProgram` (R49, R195, R253). -/

namespace Sys2Proof.Machine

/-! ### Placed elements -/

/-- `PlacedElement` (R195). -/
structure PlacedElement where
  address : Addr
  size    : Nat
  deriving DecidableEq, Repr

/-- One past an element's last address. -/
def PlacedElement.stop (e : PlacedElement) : Nat := e.address.toNat + e.size

/-- Two elements overlap. -/
def PlacedElement.overlaps (e f : PlacedElement) : Bool :=
  decide (e.address.toNat < f.stop) && decide (f.address.toNat < e.stop)

/-- "Elements never overlap" (R195). -/
def noOverlap (es : List PlacedElement) : Bool := decide (es.Pairwise fun e f => e.overlaps f = false)

/-- An address lies in the union of the elements. -/
def covered (es : List PlacedElement) (a : Nat) : Bool :=
  es.any fun e => decide (e.address.toNat ≤ a) && decide (a < e.stop)

/-- The elements fill the addresses from `lo` to `hi`, one after the other and without a gap (R49). -/
def gapFree (lo hi : Nat) : List PlacedElement → Bool
  | [] => decide (lo = hi)
  | e :: es => decide (e.address.toNat = lo) && gapFree e.stop hi es

/-- The default `update` hook (R196, R224): it fails loudly, whatever the element. -/
def defaultUpdate (e : PlacedElement) : Except BlockError PlacedElement :=
  .error (.unsupportedLayoutUpdate e.address)

/-! ### Micro-operations -/

/-- The elements of a micro-operation list, first to last, each applied to the machine state the one before left (R194).
The type of a micro-operation and its `apply(machineState)` are the external collaborator's (R193), so both are
parameters. -/
def runMicroOps {MicroOp : Type} (apply : MicroOp → MachineState → MachineState) :
    List MicroOp → MachineState → MachineState
  | [], m => m
  | op :: ops, m => runMicroOps apply ops (apply op m)

/-! ### Instructions of the assembler -/

/-- The assembler-side `Instruction` (R192): placed, with the instruction it encodes, its mnemonic and its finished
micro-operation sequence. Its byte size is that instruction's length. -/
structure AsmInstruction (MicroOp : Type) where
  address  : Addr
  instr    : Instr
  mnemonic : Text
  microOps : List MicroOp
  deriving DecidableEq, Repr

/-- The element of an assembler-side instruction: its size is the length of its encoding (R195). -/
def AsmInstruction.element {MicroOp : Type} (i : AsmInstruction MicroOp) : PlacedElement :=
  { address := i.address, size := i.instr.format.bytes }

/-- `run()` of an assembler-side instruction (R192). -/
def AsmInstruction.run {MicroOp : Type} (apply : MicroOp → MachineState → MachineState) (i : AsmInstruction MicroOp)
    (m : MachineState) : MachineState :=
  runMicroOps apply i.microOps m

/-! ### The layout pass and the program region -/

/-- The elements of a program. -/
def elementsOf {MicroOp : Type} (prog : List (AsmInstruction MicroOp)) : List PlacedElement :=
  prog.map AsmInstruction.element

/-- A finished layout for the region from `lo` to `hi` (R49, R195, R253): instructions of the instance, placed one after
the other without a gap. -/
def layoutOk {MicroOp : Type} (cfg : Config) (lo hi : Addr) (prog : List (AsmInstruction MicroOp)) : Bool :=
  gapFree lo.toNat hi.toNat (elementsOf prog) && prog.all fun i => i.instr.wellFormed cfg.frameRule

/-- The encodings of a program stored at their addresses. -/
def storeProgram {MicroOp : Type} (cfg : Config) : List (AsmInstruction MicroOp) → Memory → Memory
  | [], m => m
  | i :: is, m => storeProgram cfg is (writeSeq m i.address.toNat (encode cfg i.instr))

/-- A program laid out from `lo` to `hi` is loaded from outside the block: its encodings are stored and the layout
supplies `PROG_START` and `PROG_END` (R31, R253). A layout that is not finished is refused. -/
def loadProgram {MicroOp : Type} (lo hi : Addr) (prog : List (AsmInstruction MicroOp)) (s : State) : Res State :=
  if layoutOk s.config lo hi prog then
    supplyLayout lo hi { s with machine := { s.machine with mem := storeProgram s.config prog s.machine.mem } }
  else .refused .illFormedLayout

end Sys2Proof.Machine
end

