-- ==== Sys2Proof/Machine/Ports.lean ====
section
/-! DEFINITION. The output ports of the block, each of the width that R32 gives it: views of the decode instance. -/

namespace Sys2Proof.Machine

/-- The output ports (R32). A port is `none` until the phase that sets its component (R35). -/
structure OutputPorts where
  /-- `len`. -/
  len       : Option Format
  /-- `next_addr`, 64 bits. -/
  nextAddr  : Option Addr
  /-- The decoded fields, `disp32` and `ext64`. -/
  fields    : Option Fields
  /-- The composite bytes `opcode`, `mode`, `sib`, `rm`. -/
  composite : Option (List Byte)
  /-- `ext_valid`. -/
  extValid  : Option Bool
  /-- `operands`. -/
  operands  : Option Bundle
  /-- `class_sel`, 8 bits one-hot, or 0. -/
  classSel  : BitVec 8
  /-- `text`. -/
  text      : Option Text
  /-- The 3-bit code on `err`. -/
  errCode   : BitVec 3
  /-- The kind and info on `err`. -/
  errInfo   : Option BlockError
  deriving DecidableEq, Repr

/-- The 64 bits that the port `next_addr` carries for the sum `next` of the instruction at `addr`: the sum, where 64 bits
hold it; at `2^64` the spec states no value (R24, R32, log 17). -/
def portNextAddr (addr : Addr) (next : NextAddr) : Addr :=
  if next.toNat < addressSpace then next.setWidth 64 else Config.nextAddrAtTop addr

/-- The port `next_addr` of a decode instance. -/
def Instance.nextAddrPort (d : Instance) : Option Addr :=
  match d.addr, d.nextAddr with
  | some a, some n => some (portNextAddr a n)
  | _, _ => none

/-- The output ports in a state. -/
def State.ports (s : State) : OutputPorts :=
  { len := s.inst.len, nextAddr := s.inst.nextAddrPort, fields := s.inst.fields,
    composite := s.inst.fields.map fun F => F.hdr.bytes, extValid := s.inst.fields.map fun F => F.ext64.isSome,
    operands := s.inst.operands, classSel := s.inst.classSel, text := s.inst.text,
    errCode := Machine.errCode s.inst.err, errInfo := s.inst.err }

end Sys2Proof.Machine
end

