-- ==== Sys2Proof/Machine/Service.lean ====
section
/-! DEFINITION. The codec and operand service ports (R32): the operations of the codec and of the addressing-operand unit
on their own, outside any decode cycle. Every one is a pure function (R115, R144); none changes the state. -/

namespace Sys2Proof.Machine

/-- A request at a service port (R32). -/
inductive ServiceRequest where
  /-- `extract(b, start, end)` (R100). -/
  | extract (b : Byte) (start stop : Int)
  /-- The twelve accessors, of bytes 0 to 3 (R103). -/
  | fields (b0 b1 b2 b3 : Byte)
  /-- `opcode(class, type)` (R105). -/
  | opcode (cls typ : BitVec 4)
  /-- `mode(ss, ds, di, mem)` (R106). -/
  | mode (ss ds di mem : BitVec 2)
  /-- `sib(bp, ip, scale, index)` (R107). -/
  | sib (bp ip : BitVec 1) (scale : BitVec 2) (index : RegId)
  /-- `rm(base, dest)` (R108). -/
  | rm (base dest : RegId)
  /-- `disp32(B)`, of bytes 4 to 7 (R111). -/
  | disp32 (b4 b5 b6 b7 : Byte)
  /-- `ext64(B)`, of bytes 8 to 15 (R112). -/
  | ext64 (b8 b9 b10 b11 b12 b13 b14 b15 : Byte)
  /-- `encode(t, disp32, ext)` (R113). -/
  | encode (t : Header) (disp32 : BitVec 32) (ext : Option Word)
  /-- `RegisterOperand(id, width)`, the width by its size code (R121). -/
  | registerOperand (id : RegId) (sizeCode : BitVec 2)
  /-- `MemoryOperand(base, index, scale, displacement, size)` (R124). -/
  | memoryOperand (base index : Option RegisterOperand) (scale : Int) (displacement : Option Word) (size : Width)
  /-- `EA(m)` (R133). -/
  | effectiveAddress (m : MemoryOperand)
  /-- `relocate(m, delta)` (R135). -/
  | relocate (m : MemoryOperand) (delta : Word)
  /-- `render` of an operand (R138, R139, R142). -/
  | render (o : Operand)
  deriving DecidableEq, Repr

/-- What a service port answers: a value, or an error kind on `err`. -/
inductive ServiceAnswer where
  | value (v : Nat)
  | tuple (h : Header)
  | byte (b : Byte)
  | word32 (v : BitVec 32)
  | word64 (v : Word)
  | bytes (B : List Byte)
  | register (r : RegisterOperand)
  | memory (m : MemoryOperand)
  | text (t : Text)
  | err (e : BlockError)
  deriving DecidableEq, Repr

/-- The answer of a service port in a state. An error is an answer: the block is unchanged and can be used again at once
(R221). -/
def service (s : State) : ServiceRequest → Res ServiceAnswer
  | .extract b start stop =>
    match Sys2Proof.extract b start stop with
    | .ok v => .next (.value v)
    | .error e => .next (.err e)
  | .fields b0 b1 b2 b3 => .next (.tuple (headerOf [b0, b1, b2, b3]))
  | .opcode cls typ => .next (.byte (opcodeByte cls typ))
  | .mode ss ds di mem => .next (.byte (modeByte ss ds di mem))
  | .sib bp ip scale index => .next (.byte (sibByte bp ip scale index))
  | .rm base dest => .next (.byte (rmByte base dest))
  | .disp32 b4 b5 b6 b7 => .next (.word32 (disp32Of s.config.payloadOrder [0#8, 0#8, 0#8, 0#8, b4, b5, b6, b7]))
  | .ext64 b8 b9 b10 b11 b12 b13 b14 b15 =>
    .next (.word64 (ext64Of s.config.payloadOrder
      [0#8, 0#8, 0#8, 0#8, 0#8, 0#8, 0#8, 0#8, b8, b9, b10, b11, b12, b13, b14, b15]))
  | .encode t d ext =>
    match encodeTuple s.config t d ext with
    | some B => .next (.bytes B)
    | none => .refused .extDisagreesWithLength
  | .registerOperand id sizeCode => .next (.register { id := id, size := widthOf sizeCode })
  | .memoryOperand base index scale displacement size =>
    .next (.memory { base := base, index := index, scale := scale, displacement := displacement, size := size })
  | .effectiveAddress m => andThen (Machine.effectiveAddress m s.machine.regs) fun a => .next (.word64 a)
  | .relocate m delta => .next (.memory (Machine.relocate m delta))
  | .render o => .next (.text (Machine.render o))

end Sys2Proof.Machine
end

