-- ==== Sys2Proof/Safety.lean ====
section
/-! DEFINITION. The terms in which claims are stated: the boundary set (R157), a readable walk, a well-formed layout
(R253), the decode instances that a cycle can leave (R21, R181), and the invariant of the machine. -/

namespace Sys2Proof.Machine

/-- The boundary set of the walk from `lo` to `hi` (R157): the sequence `a_0, a_1, …`. -/
inductive Boundary (rule : FrameRule) (m : Memory) (lo hi : Nat) : Nat → Prop where
  | start : Boundary rule m lo hi lo
  | next {a : Nat} {B : List Byte} (walked : Boundary rule m lo hi a) (inside : a < hi)
      (header : memRead m a (headerBytes rule) = .next B)
      (below : a + (frameLength rule B).bytes ≤ addressSpace) :
      Boundary rule m lo hi (a + (frameLength rule B).bytes)

/-- Every header the walk needs can be read, and no cursor passes `2^64` (R254, R43). -/
def WalkReadable (rule : FrameRule) (m : Memory) (lo hi : Nat) : Prop :=
  ∀ a, Boundary rule m lo hi a → a < hi →
    ∃ B, memRead m a (headerBytes rule) = .next B ∧ a + (frameLength rule B).bytes ≤ addressSpace

/-- The boundary set of a state's program. -/
abbrev State.Boundary (s : State) (a : Nat) : Prop :=
  Machine.Boundary s.config.frameRule s.machine.mem s.progStart.toNat s.progEnd.toNat a

/-- The walk of a state's program is readable. -/
abbrev State.WalkReadable (s : State) : Prop :=
  Machine.WalkReadable s.config.frameRule s.machine.mem s.progStart.toNat s.progEnd.toNat

/-- `B` is one whole instruction at `a`: as many bytes as its header says (R60, R61), not passing `2^64` (R43). -/
def WholeInstr (cfg : Config) (a : Addr) (B : List Byte) : Prop :=
  B.length = (frameLength cfg.frameRule B).bytes ∧ passesTop a (frameLength cfg.frameRule B) = false

/-- The fields of the instruction `B` at `a` (R163). -/
def fieldsOf (cfg : Config) (a : Addr) (B : List Byte) : Fields :=
  decodeFields cfg.payloadOrder B (frameLength cfg.frameRule B) a

/-- The instance with the fields of `B` at `a` decoded. -/
def fieldsInstance (cfg : Config) (a : Addr) (B : List Byte) : Instance :=
  Instance.atFieldsDecoded a B (frameLength cfg.frameRule B) (fieldsOf cfg a B)

/-- The instance with the operands of `B` at `a` resolved. -/
def operandsInstance (cfg : Config) (a : Addr) (B : List Byte) : Instance :=
  resolved (classOf (fieldsOf cfg a B)) cfg (fieldsOf cfg a B) (fieldsInstance cfg a B)

/-- The disassembly line of `B` at `a`. -/
def textOf (cfg : Config) (a : Addr) (B : List Byte) : Text :=
  formatLine cfg.extRole (classOf (fieldsOf cfg a B)) (fieldsOf cfg a B) (resolveOperands cfg (fieldsOf cfg a B))

/-- The decode instances of R21 and R181: in every phase the components that phase has set, each a function of the
configuration, the address and the bytes (R187), and no other. -/
inductive InstanceOk (cfg : Config) : Instance → Prop where
  | idle : InstanceOk cfg Instance.idle
  | rawBytes (a : Addr) (B : List Byte) (eight : B.length = 8) : InstanceOk cfg (Instance.atRawBytes a B)
  | framed (a : Addr) (B : List Byte) (whole : WholeInstr cfg a B) :
      InstanceOk cfg (Instance.atFramed a B (frameLength cfg.frameRule B))
  | fieldsDecoded (a : Addr) (B : List Byte) (whole : WholeInstr cfg a B) : InstanceOk cfg (fieldsInstance cfg a B)
  | operandsResolved (a : Addr) (B : List Byte) (whole : WholeInstr cfg a B) (known : clsOf B < 8#4) :
      InstanceOk cfg (operandsInstance cfg a B)
  | disassembled (a : Addr) (B : List Byte) (whole : WholeInstr cfg a B) (known : clsOf B < 8#4) :
      InstanceOk cfg { operandsInstance cfg a B with phase := .disassembled, text := some (textOf cfg a B) }
  | executed (a : Addr) (B : List Byte) (whole : WholeInstr cfg a B) (known : clsOf B < 8#4) :
      InstanceOk cfg { operandsInstance cfg a B with phase := .executed }
  | misaligned (a : Addr) :
      InstanceOk cfg { Instance.idle with phase := .error, err := some (.misalignedAddress a) }
  | unknownClass (a : Addr) (B : List Byte) (whole : WholeInstr cfg a B) (unknown : 8#4 ≤ clsOf B) :
      InstanceOk cfg { fieldsInstance cfg a B with
        phase := .error, err := some (.unknownOpcodeClass (clsOf B) a) }

/-- The invariant of the machine: the memory keeps its canonical form, the decode instance is one a cycle can leave,
a supplied layout is in order (R31), and a run that has ended holds no decode instance (R191). -/
structure State.Inv (s : State) : Prop where
  memory : Memory.wf s.machine.mem = true
  inst   : InstanceOk s.config s.inst
  layout : s.layoutSupplied = true → s.progStart ≤ s.progEnd
  run    : s.run ≠ .running → s.inst.phase = .idle

/-- A result is a next state with a property. -/
def Res.Gives {α : Type} (r : Res α) (P : α → Prop) : Prop := ∃ a, r = .next a ∧ P a

/-- The run from `PROG_START` of a state's program comes to an end with a status (R191, R266). `startRun` puts the block
in `IDLE`, so that the run's first step is the decode cycle at `PROG_START`, whatever the state held. -/
def RunEnds (s : State) (status : RunStatus) : Prop :=
  status ≠ .running ∧ ∃ n t, Host.Core.run Sys2Proof.core n s.startRun = .next t ∧ t.run = status

/-- The run ends normally: an executed cycle's successor is `PROG_END`. -/
abbrev EndsNormally (s : State) : Prop := RunEnds s .endedNormally

/-- The run ends abnormally: a cycle ends in `ERROR`, and the driver has its signal. -/
abbrev EndsAbnormally (s : State) (e : BlockError) : Prop := RunEnds s (.endedAbnormally (some e))

/-- A run in which no step faults or is refused and no cycle ends in `ERROR`. -/
def SafeRun (s : State) : Prop :=
  ∀ k, ∃ t, Host.Core.run Sys2Proof.core k s.startRun = .next t ∧ t.inst.err = none

end Sys2Proof.Machine
end

