-- ==== Sys2Proof/Certificates/Slice0/Obligations.lean ====
section
/-! DEFINITION. The statements for the provers. R<n> are the numbered rules of the spec. -/

open Sys2Proof Sys2Proof.Machine

namespace Sys2Proof.Claims

/-- The inputs and constants of the block, and the driver's run, are the same in two states (R29, R31, R32, R36). -/
structure SamePorts (s t : State) : Prop where
  config         : t.config = s.config
  progStart      : t.progStart = s.progStart
  progEnd        : t.progEnd = s.progEnd
  layoutSupplied : t.layoutSupplied = s.layoutSupplied
  reqAddr        : t.reqAddr = s.reqAddr
  reqTerminal    : t.reqTerminal = s.reqTerminal
  run            : t.run = s.run

/-- What a cycle of an instruction of class `c` leaves, as R210 to R217 write it: length `len`, `next_addr = addr + len`,
`class_sel = sel`, the fields and the bundle; then the text line under `DISASSEMBLE`, the machine state `Exec[c]` returns
and no text under `EXECUTE`. -/
def cycleResult (c : ClassId) (sel : BitVec 8) (len : Format) (h : Header) (d : BitVec 32) (ext : Option Word)
    (s : State) : State :=
  let F : Fields := { hdr := h, disp32 := d, ext64 := ext, len := len, addr := s.reqAddr }
  let O := resolveOperands s.config F
  let next : NextAddr := s.reqAddr.setWidth 65 + BitVec.ofNat 65 len.bytes
  let core : Instance :=
    { phase := .operandsResolved, addr := some s.reqAddr, raw := some (encodeBytes s.config.payloadOrder h d ext),
      len := some len, nextAddr := some next, fields := some F, classSel := sel, operands := some O, text := none,
      err := none }
  match s.reqTerminal with
  | .disassemble =>
    { s with inst := { core with phase := .disassembled, text := some (formatLine s.config.extRole c F O) } }
  | .execute =>
    { s with inst := { core with phase := .executed }, machine := runExec s.config.extRole c F O s.machine next }

/-- The decoded fields of instruction `i` at the address asked for (R163). -/
def fieldsFor (i : Instr) (s : State) : Fields := fieldsAt s.reqAddr i.header i.slots.disp32 i.ext64

/-- The effect of `Exec[class]` on the machine for instruction `i` at the address asked for (R204). -/
def effectOf (i : Instr) (s : State) : Effect :=
  let F := fieldsFor i s
  Config.execEffect s.config.extRole (classOf F) F (resolveOperands s.config F) s.machine
    (nextAddrOf s.reqAddr i.format)

/-- The driver is about to start a decode cycle (R181, R191): `IDLE`, in a run that goes on, with a layout supplied. -/
structure AboutToStart (s : State) : Prop where
  idle    : s.inst.phase = .idle
  running : s.run = .running
  layout  : s.layoutSupplied = true

/-- The lower-case hexadecimal digits of `v`, `n` of them, most significant first: digit `k` is that of `16^(n-1-k)`. -/
def hexText (n v : Nat) : Text :=
  (List.range n).map fun k => "0123456789abcdef".toList.getD (v / 16 ^ (n - 1 - k) % 16) '?'

/-- A register id, a width, or a value that the block delivered to the handler (R202). -/
def DeliveredId (F : Fields) (r : RegId) : Prop := r = F.hdr.dest ∨ r = F.hdr.base ∨ r = F.hdr.index

/-- See `DeliveredId`. -/
def DeliveredWidth (F : Fields) (w : Width) : Prop := w = widthOf F.hdr.ss ∨ w = widthOf F.hdr.ds ∨ w = .w64

/-- See `DeliveredId`. -/
def DeliveredValue (F : Fields) (O : Bundle) (v : Word) : Prop :=
  O.imm = some v ∨ F.ext64 = some v ∨ v = F.disp32.signExtend 64

/-- An operand made of delivered parts only (R202). -/
def DeliveredOperand (F : Fields) (O : Bundle) : Operand → Prop
  | .reg r => DeliveredId F r.id ∧ DeliveredWidth F r.size
  | .imm v w => DeliveredValue F O v ∧ DeliveredWidth F w
  | .mem m =>
    (∀ r, m.base = some r ∨ m.index = some r → DeliveredId F r.id ∧ DeliveredWidth F r.size) ∧
    m.scale = 2 ^ F.hdr.scale.toNat ∧ (∀ d, m.displacement = some d → DeliveredValue F O d) ∧ DeliveredWidth F m.size

/-- The address asked for leaves room for `n` bytes below `2^64` (R43). -/
abbrev RoomFor (s : State) (n : Nat) : Prop := s.reqAddr.toNat + n ≤ addressSpace

end Sys2Proof.Claims

open Sys2Proof.Claims

/-! ### The codec -/

/-- R100, R101, R102: the slice of a valid range, right-justified and in range; `InvalidRange` for any other range. -/
def Obligations.ExtractSlicesOrRaisesInvalidRange : Prop :=
  ∀ (b : Byte) (start stop : Int),
    (0 ≤ stop ∧ stop ≤ start ∧ start ≤ 7 →
      ∃ v, extract b start stop = .ok v ∧ v = b.toNat / 2 ^ stop.toNat % 2 ^ (start - stop + 1).toNat ∧
        v ≤ 2 ^ (start - stop + 1).toNat - 1) ∧
    (start < stop ∨ start < 0 ∨ start > 7 ∨ stop < 0 ∨ stop > 7 →
      extract b start stop = .error (.invalidRange start stop))

/-- R103, R104: each accessor is `extract` with its constant range, which raises nothing. -/
def Obligations.AccessorsAreFixedRangeExtracts : Prop :=
  ∀ B : List Byte,
    extract (byteAt B 0) 7 4 = .ok (clsOf B).toNat ∧ extract (byteAt B 0) 3 0 = .ok (typOf B).toNat ∧
    extract (byteAt B 1) 7 6 = .ok (ssOf B).toNat ∧ extract (byteAt B 1) 5 4 = .ok (dsOf B).toNat ∧
    extract (byteAt B 1) 3 2 = .ok (diOf B).toNat ∧ extract (byteAt B 1) 1 0 = .ok (memOf B).toNat ∧
    extract (byteAt B 2) 7 7 = .ok (bpOf B).toNat ∧ extract (byteAt B 2) 6 6 = .ok (ipOf B).toNat ∧
    extract (byteAt B 2) 5 4 = .ok (scaleOf B).toNat ∧ extract (byteAt B 2) 3 0 = .ok (indexOf B).toNat ∧
    extract (byteAt B 3) 7 4 = .ok (baseOf B).toNat ∧ extract (byteAt B 3) 3 0 = .ok (destOf B).toNat

/-- R105 to R109: a composite byte is its shifted fields, which never overlap, so it is their sum. -/
def Obligations.CompositeBytesAreFieldSums : Prop :=
  ∀ h : Header,
    h.opcode.toNat = 16 * h.cls.toNat + h.typ.toNat ∧
    h.mode.toNat = 64 * h.ss.toNat + 16 * h.ds.toNat + 4 * h.di.toNat + h.mem.toNat ∧
    h.sib.toNat = 128 * h.bp.toNat + 64 * h.ip.toNat + 16 * h.scale.toNat + h.index.toNat ∧
    h.rm.toNat = 16 * h.base.toNat + h.dest.toNat

/-- R110: the twelve fields and the four composite bytes determine each other. -/
def Obligations.HeaderCodecRoundTrip : Prop :=
  (∀ (h : Header) (rest : List Byte), headerOf (h.bytes ++ rest) = h) ∧
  (∀ (b0 b1 b2 b3 : Byte) (rest : List Byte), (headerOf (b0 :: b1 :: b2 :: b3 :: rest)).bytes = [b0, b1, b2, b3])

/-- R111, R112: the payload slicers, in both byte orders. -/
def Obligations.PayloadSlicersFollowByteOrder : Prop :=
  ∀ b0 b1 b2 b3 b4 b5 b6 b7 b8 b9 b10 b11 b12 b13 b14 b15 : Byte,
    let B := [b0, b1, b2, b3, b4, b5, b6, b7, b8, b9, b10, b11, b12, b13, b14, b15]
    (disp32Of .be B).toNat = b4.toNat * 2 ^ 24 + b5.toNat * 2 ^ 16 + b6.toNat * 2 ^ 8 + b7.toNat ∧
    (disp32Of .le B).toNat = b4.toNat + b5.toNat * 2 ^ 8 + b6.toNat * 2 ^ 16 + b7.toNat * 2 ^ 24 ∧
    (ext64Of .be B).toNat = b8.toNat * 2 ^ 56 + b9.toNat * 2 ^ 48 + b10.toNat * 2 ^ 40 + b11.toNat * 2 ^ 32 +
      b12.toNat * 2 ^ 24 + b13.toNat * 2 ^ 16 + b14.toNat * 2 ^ 8 + b15.toNat ∧
    (ext64Of .le B).toNat = b8.toNat + b9.toNat * 2 ^ 8 + b10.toNat * 2 ^ 16 + b11.toNat * 2 ^ 24 +
      b12.toNat * 2 ^ 32 + b13.toNat * 2 ^ 40 + b14.toNat * 2 ^ 48 + b15.toNat * 2 ^ 56

/-- R114: field decode and `encode` are inverse, for every tuple, displacement and 8-byte value that agrees with the
length, and for every byte string of its own length. -/
def Obligations.WholeInstructionRoundTrip : Prop :=
  ∀ cfg : Config,
    (∀ (h : Header) (d : BitVec 32) (ext : Option Word) (B : List Byte) (a : Addr),
      encodeTuple cfg h d ext = some B →
      B.length = (frameLength cfg.frameRule B).bytes ∧
      decodeFields cfg.payloadOrder B (frameLength cfg.frameRule B) a =
        { hdr := h, disp32 := d, ext64 := ext, len := frameLength cfg.frameRule B, addr := a }) ∧
    (∀ (B : List Byte) (a : Addr), B.length = (frameLength cfg.frameRule B).bytes →
      let F := decodeFields cfg.payloadOrder B (frameLength cfg.frameRule B) a
      encodeTuple cfg F.hdr F.disp32 F.ext64 = some B)

/-- R113: the encoder port answers the bytes, as many as the length says, exactly when the 8-byte value agrees with the
length of the header; any other request is refused with no error kind. -/
def Obligations.EncoderPortNeedsTheRightLength : Prop :=
  ∀ (s : State) (h : Header) (d : BitVec 32) (ext : Option Word),
    (frameLength s.config.frameRule h.bytes = formatOf ext →
      ∃ B, service s (.encode h d ext) = .next (.bytes B) ∧
        B.length = (frameLength s.config.frameRule h.bytes).bytes) ∧
    (frameLength s.config.frameRule h.bytes ≠ formatOf ext →
      service s (.encode h d ext) = .refused .extDisagreesWithLength)

/-! ### Framing and the opcode table -/

/-- R150, R151, R154: the conditions that select 16 bytes, under each framing rule; every other header gives 8. -/
def Obligations.FrameLengthConditions : Prop :=
  ∀ B : List Byte,
    (frameLength .immBit B = .f16 ↔
      (clsOf B = 1#4 ∨ clsOf B = 2#4) ∧ (diOf B = 3#2 ∨ (diOf B = 1#2 ∧ ssOf B = 3#2))) ∧
    (frameLength .indexPresent B = .f16 ↔
      (clsOf B = 1#4 ∨ clsOf B = 2#4) ∧ (diOf B = 3#2 ∨ (ipOf B = 1#1 ∧ diOf B = 0#2 ∧ ssOf B = 3#2)))

/-- R152: the length is a function of the header bytes only, two of them, or three under `INDEX_PRESENT`. -/
def Obligations.FrameLengthReadsHeaderBytesOnly : Prop :=
  ∀ (rule : FrameRule) (B B' : List Byte),
    (∀ k, k < headerBytes rule → byteAt B k = byteAt B' k) → frameLength rule B = frameLength rule B'

/-- R80: the rows of the opcode table are pairwise disjoint and cover every header. -/
def Obligations.OpcodeTableRowsPartitionHeaders : Prop :=
  ∀ H : BitVec 16, ∃ r, r ∈ opcodeTable ∧ r.isRowOf H = true ∧
    ∀ r', r' ∈ opcodeTable → r'.isRowOf H = true → r' = r

/-- R80, R155: under `IMM_BIT` the length of a header is the length its row says. -/
def Obligations.FrameLengthIsTheRowsLength : Prop :=
  ∀ (B : List Byte) (r : OpcodeRow), r ∈ opcodeTable → r.isRowOf (headerWord B) = true →
    frameLength .immBit B = r.format

/-- R73, R80: the decoded instruction carries the label of the row its header matches, under either framing rule. -/
def Obligations.DecodedInstructionCarriesItsRowsLabel : Prop :=
  ∀ (cfg : Config) (B rest : List Byte) (i : Instr), decode cfg B = .ok (i, rest) →
    ∃ r, r ∈ opcodeTable ∧ r.isRowOf (headerWord B) = true ∧ i.mnemonic = r.label

/-- Decode of encode: every operand of every well-formed instruction at every value comes back (R114). -/
def Obligations.DecodeOfEncodeIsTheInstruction : Prop :=
  ∀ (cfg : Config) (i : Instr) (rest : List Byte), WellFormed cfg i →
    decode cfg (encode cfg i ++ rest) = .ok (i, rest)

/-- Encode of decode: what decodes is well-formed, and its bytes are the bytes it was decoded from (R114). -/
def Obligations.EncodeOfDecodeIsTheBytes : Prop :=
  ∀ (cfg : Config) (B rest : List Byte) (i : Instr), decode cfg B = .ok (i, rest) →
    WellFormed cfg i ∧ encode cfg i ++ rest = B

/-- Words written out from the spec's encodings decode to the instructions they stand for (R163, R211, R213, R166). The
slots are in the order `type`, `ds`, `mem`, `bp`, `ip`, `scale`, `index`, `base`, `dest`, `disp32`. -/
def Obligations.SpecWordsDecode : Prop :=
  decode Config.standard [0x10#8, 0xFA#8, 0xE5#8, 0x37#8, 0x00#8, 0x00#8, 0x00#8, 0x08#8] =
    .ok (.class1F8Mem 3#2 ⟨0#4, 3#2, 2#2, 1#1, 1#1, 2#2, 5#4, 3#4, 7#4, 8#32⟩, []) ∧
  decode Config.standard [0x30#8, 0xFC#8, 0x80#8, 0x31#8, 0x00#8, 0x00#8, 0x00#8, 0x10#8] =
    .ok (.class3F8 3#2 3#2 ⟨0#4, 3#2, 0#2, 1#1, 0#1, 0#2, 0#4, 3#4, 1#4, 16#32⟩, []) ∧
  decode Config.standard [0x96#8, 0x6C#8, 0x7C#8, 0xF0#8, 0x12#8, 0x34#8, 0x56#8, 0x78#8] =
    .ok (.unknownClass 9#4 1#2 3#2 ⟨6#4, 2#2, 0#2, 0#1, 1#1, 3#2, 12#4, 15#4, 0#4, 0x12345678#32⟩, [])

/-! ### The boundary check -/

/-- R157, R158: where the walk can be read, `check(q)` answers, and answers true exactly for the addresses of the
boundary set up to `PROG_END`. -/
def Obligations.CheckIsBoundaryMembership : Prop :=
  ∀ (rule : FrameRule) (m : Memory) (lo hi q : Addr), Machine.WalkReadable rule m lo.toNat hi.toNat →
    ∃ r, check rule m lo hi q = .next r ∧
      (r = true ↔ Machine.Boundary rule m lo.toNat hi.toNat q.toNat ∧ q ≤ hi)

/-- R160: the start of the program and the address after its first instruction are boundaries, no address inside the
first instruction is. -/
def Obligations.CheckOfTheFirstInstruction : Prop :=
  ∀ (rule : FrameRule) (m : Memory) (lo hi : Addr) (B : List Byte),
    Machine.WalkReadable rule m lo.toNat hi.toNat → memRead m lo.toNat (headerBytes rule) = .next B →
    lo.toNat + (frameLength rule B).bytes ≤ hi.toNat →
    check rule m lo hi lo = .next true ∧
    check rule m lo hi (lo + BitVec.ofNat 64 (frameLength rule B).bytes) = .next true ∧
    ∀ k, 0 < k → k < (frameLength rule B).bytes → check rule m lo hi (lo + BitVec.ofNat 64 k) = .next false

/-- R47, R157: every boundary is the program start plus a multiple of 8. -/
def Obligations.BoundariesAreEightByteSteps : Prop :=
  ∀ (rule : FrameRule) (m : Memory) (lo hi a : Nat), Machine.Boundary rule m lo hi a → ∃ k, a = lo + 8 * k

/-- R161, R259: a store that touches no header byte of the walk leaves every answer of `check` as it was. -/
def Obligations.StoreOutsideHeadersKeepsCheck : Prop :=
  ∀ (rule : FrameRule) (m : Memory) (lo hi q : Addr) (x : Nat) (b : Byte),
    (∀ a, Machine.Boundary rule m lo.toNat hi.toNat a → a < hi.toNat → x < a ∨ a + headerBytes rule ≤ x) →
    check rule (writeByte m x b) lo hi q = check rule m lo hi q

/-- R43, R157: a walk that has reached a cursor before the query and before `PROG_END` is refused when the header there, or
the instruction's end, would pass `2^64`; `check` answers no truth value, and a cycle asked for there is refused too. -/
def Obligations.WalkPastTheTopIsRefused : Prop :=
  ∀ (s : State) (a : Nat), s.Boundary a → a < s.reqAddr.toNat → a < s.progEnd.toNat →
    (a + headerBytes s.config.frameRule > addressSpace ∨
      ∃ B, memRead s.machine.mem a (headerBytes s.config.frameRule) = .next B ∧
        a + (frameLength s.config.frameRule B).bytes > addressSpace) →
    s.checkRequest = .refused .addressWrap ∧ (AboutToStart s → step s = .refused .addressWrap)

/-! ### Memory -/

/-- R41, R42: after a `MemWrite` every byte of the sequence reads as written, every other address reads as before, and
the memory keeps its canonical form (the form is the model's own, log 8). -/
def Obligations.MemWriteReadsBack : Prop :=
  ∀ (m m' : Memory) (a : Nat) (bs : List Byte), Memory.wf m = true → memWrite m a bs = .next m' →
    Memory.wf m' = true ∧
    ∀ x, readByte m' x = if a ≤ x ∧ x < a + bs.length then bs[x - a]? else readByte m x

/-- R25, R26: a handler's register writes, the last one to a register standing: `x[i]` reads back in full, and every
register it does not write reads as before. No register is hard-wired. -/
def Obligations.RegisterWritesReadBack : Prop :=
  ∀ (regs : Vector Word 16) (ws : List (RegId × Word)) (i j : RegId) (v : Word),
    readReg (applyRegWrites regs (ws ++ [(i, v)])) j =
      if j = i then v else readReg (applyRegWrites regs ws) j

/-- R44, R54: a store of an instruction at the address asked for is what the next fetch reads, with nothing in
between. -/
def Obligations.StoreSeenByNextFetch : Prop :=
  ∀ (s s' : State) (B : List Byte), WholeInstr s.config s.reqAddr B →
    s.memWrite s.reqAddr.toNat B = .next s' → fetchInstr s' = .next B

/-! ### Starting a cycle -/

/-- The tie between steps and instructions (R163, R164, R181): from `IDLE`, at a boundary inside the program where the
bytes of one instruction stand, a step is the meaning of the instruction they decode to. -/
def Obligations.StepRunsTheDecodedInstruction : Prop :=
  ∀ (s : State) (B : List Byte) (i : Instr), AboutToStart s →
    s.checkRequest = .next true → s.reqAddr < s.progEnd →
    memRead s.machine.mem s.reqAddr.toNat B.length = .next B → decode s.config B = .ok (i, []) →
    step s = exec i s

/-- R159, R223, R225, R226: a request at an address that is no boundary raises `MisalignedAddress`, whatever the bytes
there would show; nothing is fetched and nothing else changes. -/
def Obligations.MisalignedRequestRaisesBeforeFetch : Prop :=
  ∀ s : State, AboutToStart s → s.checkRequest = .next false →
    ∃ t, step s = .next t ∧ t.inst.phase = .error ∧ t.inst.err = some (.misalignedAddress s.reqAddr) ∧
      t.inst.classSel = 0#8 ∧ t.inst.raw = none ∧ t.inst.len = none ∧
      t.inst.nextAddr = none ∧ t.inst.fields = none ∧ t.inst.operands = none ∧ t.inst.text = none ∧
      t.machine = s.machine ∧ SamePorts s t

/-- R159, R229: a cycle at `PROG_END` itself, where `check` is true, is refused with no error kind; an address beyond it
raises `MisalignedAddress`. -/
def Obligations.RequestsAtAndBeyondProgEnd : Prop :=
  ∀ s : State, AboutToStart s → s.WalkReadable →
    (s.reqAddr = s.progEnd → s.checkRequest = .next true → step s = .refused .atProgEnd) ∧
    (s.progEnd < s.reqAddr →
      ∃ t, step s = .next t ∧ t.inst.phase = .error ∧ t.inst.err = some (.misalignedAddress s.reqAddr))

/-- R35: no decode cycle starts before the layout has supplied `PROG_START` and `PROG_END`. -/
def Obligations.NoCycleBeforeTheLayout : Prop :=
  ∀ s : State, s.inst.phase = .idle → s.run = .running → s.layoutSupplied = false → step s = .refused .layoutNotSupplied

/-- R24, R43: an instruction that would pass `2^64` is refused; any other completes with `next_addr = addr + len`. R32: its
64-bit port carries that sum where 64 bits hold it; at `2^64` itself it carries a free value (log 17). -/
def Obligations.NextAddrIsTheExactSum : Prop :=
  ∀ (i : Instr) (s : State),
    (¬ RoomFor s i.format.bytes → exec i s = .refused .addressWrap) ∧
    (RoomFor s i.format.bytes →
      ∃ t n p, exec i s = .next t ∧ t.inst.nextAddr = some n ∧ n.toNat = s.reqAddr.toNat + i.format.bytes ∧
        t.ports.nextAddr = some p ∧
        (s.reqAddr.toNat + i.format.bytes < addressSpace → p.toNat = s.reqAddr.toNat + i.format.bytes) ∧
        (s.reqAddr.toNat + i.format.bytes = addressSpace → p = Config.nextAddrAtTop s.reqAddr))

/-- From `IDLE`, a cycle at a boundary inside the program whose instruction can be fetched ends in a terminal or in
`ERROR`, for every state: no such step stops (R56, R77, R181). -/
def Obligations.CycleEndsWhereItsBytesAreThere : Prop :=
  ∀ (s : State) (B : List Byte), AboutToStart s →
    s.checkRequest = .next true → s.reqAddr < s.progEnd → fetchInstr s = .next B →
    ∃ t, step s = .next t ∧ Phase.isEnd t.inst.phase = true ∧ t.inst.raw = some B

/-! ### The meanings of the classes -/

/-- R210, R213 to R217: the cycle of a class 0 or class 3 to 7 instruction completes with length 8 whatever byte 1
holds, the class's own select and handler, and no extended value. -/
def Obligations.ShortClassesComplete : Prop :=
  ∀ (s : State) (ss di : BitVec 2) (c : Slots), RoomFor s 8 →
    exec (.class0F8 ss di c) s = .next (cycleResult 0#3 0x01#8 .f8 (c.header 0#4 ss di) c.disp32 none s) ∧
    exec (.class3F8 ss di c) s = .next (cycleResult 3#3 0x08#8 .f8 (c.header 3#4 ss di) c.disp32 none s) ∧
    exec (.class4F8 ss di c) s = .next (cycleResult 4#3 0x10#8 .f8 (c.header 4#4 ss di) c.disp32 none s) ∧
    exec (.class5F8 ss di c) s = .next (cycleResult 5#3 0x20#8 .f8 (c.header 5#4 ss di) c.disp32 none s) ∧
    exec (.class6F8 ss di c) s = .next (cycleResult 6#3 0x40#8 .f8 (c.header 6#4 ss di) c.disp32 none s) ∧
    exec (.class7F8 ss di c) s = .next (cycleResult 7#3 0x80#8 .f8 (c.header 7#4 ss di) c.disp32 none s)

/-- R211: the 8-byte rows of class 1 complete (the last under `INDEX_PRESENT` only). -/
def Obligations.Class1ShortRowsComplete : Prop :=
  ∀ (s : State) (ss : BitVec 2) (c : Slots), RoomFor s 8 →
    exec (.class1F8Regreg ss c) s = .next (cycleResult 1#3 0x02#8 .f8 (c.header 1#4 ss 0#2) c.disp32 none s) ∧
    exec (.class1F8Mem ss c) s = .next (cycleResult 1#3 0x02#8 .f8 (c.header 1#4 ss 2#2) c.disp32 none s) ∧
    exec (.class1F8Imm8 c) s = .next (cycleResult 1#3 0x02#8 .f8 (c.header 1#4 0#2 1#2) c.disp32 none s) ∧
    exec (.class1F8Imm16 c) s = .next (cycleResult 1#3 0x02#8 .f8 (c.header 1#4 1#2 1#2) c.disp32 none s) ∧
    exec (.class1F8Imm32 c) s = .next (cycleResult 1#3 0x02#8 .f8 (c.header 1#4 2#2 1#2) c.disp32 none s) ∧
    exec (.class1F8Imm64 c) s = .next (cycleResult 1#3 0x02#8 .f8 (c.header 1#4 3#2 1#2) c.disp32 none s)

/-- R211: the 16-byte rows of class 1 complete (the last under `INDEX_PRESENT` only). -/
def Obligations.Class1LongRowsComplete : Prop :=
  ∀ (s : State) (ss : BitVec 2) (c : Slots) (e : Word), RoomFor s 16 →
    exec (.class1F16Memext ss c e) s =
      .next (cycleResult 1#3 0x02#8 .f16 (c.header 1#4 ss 3#2) c.disp32 (some e) s) ∧
    exec (.class1F16Imm64 c e) s =
      .next (cycleResult 1#3 0x02#8 .f16 (c.header 1#4 3#2 1#2) c.disp32 (some e) s) ∧
    exec (.class1F16Regidx c e) s =
      .next (cycleResult 1#3 0x02#8 .f16 (c.header 1#4 3#2 0#2) c.disp32 (some e) s)

/-- R212: the 8-byte rows of class 2 complete (the last under `INDEX_PRESENT` only). -/
def Obligations.Class2ShortRowsComplete : Prop :=
  ∀ (s : State) (ss : BitVec 2) (c : Slots), RoomFor s 8 →
    exec (.class2F8Regreg ss c) s = .next (cycleResult 2#3 0x04#8 .f8 (c.header 2#4 ss 0#2) c.disp32 none s) ∧
    exec (.class2F8Mem ss c) s = .next (cycleResult 2#3 0x04#8 .f8 (c.header 2#4 ss 2#2) c.disp32 none s) ∧
    exec (.class2F8Imm8 c) s = .next (cycleResult 2#3 0x04#8 .f8 (c.header 2#4 0#2 1#2) c.disp32 none s) ∧
    exec (.class2F8Imm16 c) s = .next (cycleResult 2#3 0x04#8 .f8 (c.header 2#4 1#2 1#2) c.disp32 none s) ∧
    exec (.class2F8Imm32 c) s = .next (cycleResult 2#3 0x04#8 .f8 (c.header 2#4 2#2 1#2) c.disp32 none s) ∧
    exec (.class2F8Imm64 c) s = .next (cycleResult 2#3 0x04#8 .f8 (c.header 2#4 3#2 1#2) c.disp32 none s)

/-- R212: the 16-byte rows of class 2 complete (the last under `INDEX_PRESENT` only). -/
def Obligations.Class2LongRowsComplete : Prop :=
  ∀ (s : State) (ss : BitVec 2) (c : Slots) (e : Word), RoomFor s 16 →
    exec (.class2F16Memext ss c e) s =
      .next (cycleResult 2#3 0x04#8 .f16 (c.header 2#4 ss 3#2) c.disp32 (some e) s) ∧
    exec (.class2F16Imm64 c e) s =
      .next (cycleResult 2#3 0x04#8 .f16 (c.header 2#4 3#2 1#2) c.disp32 (some e) s) ∧
    exec (.class2F16Regidx c e) s =
      .next (cycleResult 2#3 0x04#8 .f16 (c.header 2#4 3#2 0#2) c.disp32 (some e) s)

/-- R166: an instruction of class 8 to 15 raises `UnknownOpcodeClass(class, addr)`, whatever the rest of its bytes and
whichever terminal was asked for; its fields are decoded, no handler is selected, no operand is resolved, no text is
produced and no machine state changes. -/
def Obligations.UnknownClassRaisesAtDispatch : Prop :=
  ∀ (s : State) (cls : BitVec 4) (ss di : BitVec 2) (c : Slots), 8#4 ≤ cls → RoomFor s 8 →
    ∃ t, exec (.unknownClass cls ss di c) s = .next t ∧ t.inst.phase = .error ∧
      t.inst.err = some (.unknownOpcodeClass cls s.reqAddr) ∧
      t.inst.addr = some s.reqAddr ∧ t.inst.len = some .f8 ∧
      t.inst.fields = some (fieldsAt s.reqAddr (c.header cls ss di) c.disp32 none) ∧
      t.inst.classSel = 0#8 ∧ t.inst.operands = none ∧ t.inst.text = none ∧ t.machine = s.machine ∧ SamePorts s t

/-- R167: in a cycle that gets as far as its bytes, `UnknownOpcodeClass` is raised for exactly the class values 8 to 15
and for no other, with the class and the address asked for. -/
def Obligations.UnknownClassRaisedExactlyFor8To15 : Prop :=
  ∀ (s t : State) (B : List Byte), AboutToStart s →
    s.checkRequest = .next true → s.reqAddr < s.progEnd → fetchInstr s = .next B → step s = .next t →
    (8#4 ≤ clsOf B → t.inst.err = some (.unknownOpcodeClass (clsOf B) s.reqAddr)) ∧
    (clsOf B < 8#4 → t.inst.err = none)

/-- R165, R205: the handler select is one-hot at the class for the classes 0 to 7 and zero for the classes 8 to 15. -/
def Obligations.ClassSelectIsOneHot : Prop :=
  ∀ (i : Instr) (s t : State), WellFormed s.config i → exec i s = .next t →
    (i.header.cls < 8#4 → t.inst.classSel.toNat = 2 ^ i.header.cls.toNat) ∧
    (8#4 ≤ i.header.cls → t.inst.classSel = 0#8)

/-- R182: `DISASSEMBLED` has the text line and changes no machine state; `EXECUTED` has the machine state that
`Exec[class]` returns and no text. -/
def Obligations.TerminalsMutateOrDescribe : Prop :=
  ∀ (i : Instr) (s t : State), WellFormed s.config i → i.header.cls < 8#4 → exec i s = .next t →
    (s.reqTerminal = .disassemble →
      t.inst.phase = .disassembled ∧ t.machine = s.machine ∧
      t.inst.text = some (formatLine s.config.extRole (classOf (fieldsFor i s)) (fieldsFor i s)
        (resolveOperands s.config (fieldsFor i s)))) ∧
    (s.reqTerminal = .execute →
      t.inst.phase = .executed ∧ t.inst.text = none ∧
      t.machine = applyEffect (effectOf i s) (nextAddrOf s.reqAddr i.format) s.machine)

/-- The frame of every instruction (R26, R42, R182, R188): the ports and constants never change; under `DISASSEMBLE`, and
for a class with no handler, no register and no byte changes; under `EXECUTE` a register or a byte holds the last value
the handler's effect writes to it, and is unchanged where the effect writes none; the successor is the one the effect
names, else `next_addr`. The effect is the external `Exec[class]` (log 4). -/
def Obligations.InstructionFrame : Prop :=
  ∀ (i : Instr) (s t : State), WellFormed s.config i → exec i s = .next t →
    SamePorts s t ∧
    (s.reqTerminal = .disassemble ∨ 8#4 ≤ i.header.cls → t.machine = s.machine) ∧
    (s.reqTerminal = .execute → i.header.cls < 8#4 →
      (∀ r : RegId, t.reg r = (((effectOf i s).regWrites.reverse.find? (fun w => w.1 = r)).map Prod.snd).getD (s.reg r)) ∧
      (∀ a : Nat, t.byte a =
        match (effectOf i s).memWrites.reverse.find? (fun w => w.1.toNat = a) with
        | some w => some w.2
        | none => s.byte a) ∧
      t.machine.successor = ((effectOf i s).successor.map (BitVec.setWidth 65)).getD
        (nextAddrOf s.reqAddr i.format))

/-! ### Operands -/

/-- R66, R129, R130: the width of each size code, and the size code that `MEM_SIZE_SEL` takes for a memory operand. R126,
R127, R128, R129, R132: which members of the bundle are present, and with what values, by `di` and by whether the 8-byte
field is there. -/
def Obligations.BundleMembersByForm : Prop :=
  (widthOf 0#2).bits = 8 ∧ (widthOf 1#2).bits = 16 ∧ (widthOf 2#2).bits = 32 ∧ (widthOf 3#2).bits = 64 ∧
  (∀ (cfg : Config) (F : Fields),
    let O := resolveOperands cfg F
    let memSize : BitVec 2 := if cfg.memSizeSel = .ss then F.hdr.ss else F.hdr.ds
    let m : MemoryOperand :=
      { base := if F.hdr.bp = 1#1 then some ⟨F.hdr.base, .w64⟩ else none,
        index := if F.hdr.ip = 1#1 then some ⟨F.hdr.index, .w64⟩ else none,
        scale := 2 ^ F.hdr.scale.toNat, displacement := some (F.disp32.signExtend 64),
        size := widthOf memSize }
    O.kind = F.hdr.di ∧ O.memvar = F.hdr.mem ∧ O.dst = ⟨F.hdr.dest, widthOf F.hdr.ds⟩ ∧
    (F.hdr.di = 0#2 → O.src = some ⟨F.hdr.base, widthOf F.hdr.ss⟩ ∧ O.imm = none ∧ O.memOp = none ∧ O.ext = none) ∧
    (F.hdr.di = 1#2 → O.src = none ∧ O.imm = some (F.ext64.getD (F.disp32.signExtend 64)) ∧ O.memOp = none ∧
      O.ext = none) ∧
    (F.hdr.di = 2#2 → O.src = none ∧ O.imm = none ∧ O.memOp = some m ∧ O.ext = none) ∧
    (F.hdr.di = 3#2 → O.src = none ∧ O.imm = none ∧ O.memOp = some m ∧ O.ext = F.ext64))

/-- R131: the displacement of a decoded memory operand is present, a zero included, and is the signed value of the 32-bit
field. -/
def Obligations.DisplacementKeepsTheSignedValue : Prop :=
  ∀ (cfg : Config) (F : Fields) (m : MemoryOperand), (resolveOperands cfg F).memOp = some m →
    ∃ d, m.displacement = some d ∧ d.toInt = F.disp32.toInt

/-- R133, R134: the effective address is the sum modulo `2^64`; a base or index of another width has none. -/
def Obligations.EffectiveAddressIsTheModularSum : Prop :=
  ∀ (m : MemoryOperand) (regs : Vector Word 16),
    ((∀ r, m.base = some r → r.size = .w64) ∧ (∀ r, m.index = some r → r.size = .w64) →
      ∃ a, effectiveAddress m regs = .next a ∧
        (a.toNat : Int) = (((m.base.map fun r => ((readReg regs r.id).toNat : Int)).getD 0) +
          ((m.index.map fun r => ((readReg regs r.id).toNat : Int)).getD 0) * m.scale +
          ((m.displacement.map BitVec.toInt).getD 0)) % 2 ^ 64) ∧
    ((∃ r, (m.base = some r ∨ m.index = some r) ∧ r.size ≠ .w64) →
      effectiveAddress m regs = .refused .narrowAddressRegister)

/-- R135, R136: relocation moves a present displacement modulo `2^64`, leaves an absent one absent and every other
member alone, composes by addition, and by zero is the identity. -/
def Obligations.RelocationLaws : Prop :=
  ∀ (m : MemoryOperand) (d1 d2 : Word),
    (relocate m d1).base = m.base ∧ (relocate m d1).index = m.index ∧ (relocate m d1).scale = m.scale ∧
    (relocate m d1).size = m.size ∧
    (m.displacement = none → (relocate m d1).displacement = none) ∧
    (∀ d, m.displacement = some d →
      ∃ d', (relocate m d1).displacement = some d' ∧ d'.toInt = (d.toInt + d1.toInt).bmod (2 ^ 64)) ∧
    relocate (relocate m d1) d2 = relocate m (d1 + d2) ∧ relocate m 0#64 = m

/-- R139, R141, R143: the text of a memory operand in every case of presence, the four scale factors in base ten, and the
source's example with the displacement 8. -/
def Obligations.RenderedMemoryOperands : Prop :=
  ∀ (b i : RegisterOperand) (d : Word) (z : Width),
    let bn := Config.regName b.id b.size
    let inm := Config.regName i.id i.size
    (∀ k : BitVec 2,
      let scale := (["1", "2", "4", "8"].getD k.toNat "").toList
      render (.mem ⟨some b, some i, 2 ^ k.toNat, some d, z⟩) =
        hexdisp d ++ "(".toList ++ bn ++ ", ".toList ++ inm ++ ", ".toList ++ scale ++ ")".toList ∧
      render (.mem ⟨none, some i, 2 ^ k.toNat, some d, z⟩) =
        hexdisp d ++ "(, ".toList ++ inm ++ ", ".toList ++ scale ++ ")".toList ∧
      render (.mem ⟨some b, some i, 2 ^ k.toNat, none, z⟩) =
        "(".toList ++ bn ++ ", ".toList ++ inm ++ ", ".toList ++ scale ++ ")".toList ∧
      render (.mem ⟨none, some i, 2 ^ k.toNat, none, z⟩) =
        "(, ".toList ++ inm ++ ", ".toList ++ scale ++ ")".toList ∧
      render (.mem ⟨some b, none, 2 ^ k.toNat, some d, z⟩) = hexdisp d ++ "(".toList ++ bn ++ ")".toList ∧
      render (.mem ⟨none, none, 2 ^ k.toNat, some d, z⟩) = hexdisp d ++ "()".toList ∧
      render (.mem ⟨some b, none, 2 ^ k.toNat, none, z⟩) = "(".toList ++ bn ++ ")".toList ∧
      render (.mem ⟨none, none, 2 ^ k.toNat, none, z⟩) = "()".toList) ∧
    render (.mem ⟨some b, none, 1, some 8#64, z⟩) = "0x00000008(".toList ++ bn ++ ")".toList

/-- R140: `0x`, then eight digits of `d mod 2^32` for a displacement that fits 32 signed bits, sixteen of `d mod 2^64` for
any other, lower case and most significant first; and two displacements with the same text are the same. -/
def Obligations.HexDisplacementIsFaithful : Prop :=
  (∀ d : Word, hexdisp d = "0x".toList ++
    if -2 ^ 31 ≤ d.toInt ∧ d.toInt < 2 ^ 31 then hexText 8 (d.toNat % 2 ^ 32) else hexText 16 d.toNat) ∧
  (∀ d d' : Word, hexdisp d = hexdisp d' → d = d')

/-- R203: the disassembly line is the mnemonic alone, or the mnemonic, one space, and the operands with a comma and one
space between them. R202: every operand in it is made of register ids, widths, displacements, immediates and extended
values that field decode or operand resolution delivered (what counts as delivered is log 16). -/
def Obligations.DisassemblyLineShape : Prop :=
  ∀ (cfg : Config) (c : ClassId) (F : Fields),
    let O := resolveOperands cfg F
    let operands := handlerOperands cfg.extRole c F O
    (formatLine cfg.extRole c F O =
      if operands = [] then Config.mnemonic c F.hdr.typ
      else Config.mnemonic c F.hdr.typ ++ " ".toList ++ List.intercalate ", ".toList (operands.map render)) ∧
    (∀ o ∈ operands, DeliveredOperand F O o)

/-! ### Between cycles, errors and their return -/

/-- R183: execution after disassembly of the same instance uses the fields and the bundle resolved before, on the
machine state of that moment; the instance never goes back to `RAW_BYTES`. -/
def Obligations.ExecutionAfterDisassembly : Prop :=
  ∀ (s : State) (F : Fields) (O : Bundle) (n : NextAddr), s.inst.phase = .disassembled →
    s.reqTerminal = .execute → s.inst.fields = some F → s.inst.operands = some O → s.inst.nextAddr = some n →
    ∃ t, step s = .next t ∧ t.inst = { s.inst with phase := .executed, text := none } ∧
      t.machine = runExec s.config.extRole (classOf F) F O s.machine n ∧ SamePorts s t

/-- R181, R190, R191, R228, R266: the driver releases the instance. After an executed cycle the next request is the address
the machine state names, and the run ends normally when that is `PROG_END`; a successor of `2^64` is no address, and the
step is refused (R24, R43, log 12). After an error the run ends abnormally, with the signal the driver received; after a
disassembly nothing but the instance changes. While a run goes on from `IDLE`, a step starts the cycle asked for; after
it has ended, a step changes nothing. A run starts, whatever instance the driver still held, with the executed cycle at
`PROG_START`. That these moves are the step's is the model's choice (log 6). -/
def Obligations.DriverReleasesTheInstance : Prop :=
  ∀ s : State,
    (s.inst.phase = .executed → s.machine.successor.toNat < addressSpace →
      s.machine.successor ≠ s.progEnd.setWidth 65 →
      step s = .next { s with inst := Instance.idle, reqAddr := s.machine.successor.setWidth 64 }) ∧
    (s.inst.phase = .executed → s.machine.successor = s.progEnd.setWidth 65 →
      step s = .next { s with inst := Instance.idle, reqAddr := s.progEnd, run := .endedNormally }) ∧
    (s.inst.phase = .executed → addressSpace ≤ s.machine.successor.toNat → step s = .refused .addressWrap) ∧
    (s.inst.phase = .error → step s = .next { s with inst := Instance.idle, run := .endedAbnormally s.inst.err }) ∧
    (s.inst.phase = .disassembled → s.reqTerminal = .disassemble → step s = .next { s with inst := Instance.idle }) ∧
    (s.inst.phase = .idle → s.run = .running → step s = decodeCycleWith exec s) ∧
    (s.inst.phase = .idle → s.run ≠ .running → step s = .next s) ∧
    s.startRun = { s with
      inst := Instance.idle, reqAddr := s.progStart, reqTerminal := .execute, run := .running } ∧
    step s.startRun = decodeCycleWith exec s.startRun

/-- R190, R258: a successor that is no instruction boundary ends its cycle with `MisalignedAddress`, in a run that goes on
(at `PROG_END` the run has ended, R266). -/
def Obligations.TransferIntoAnInstructionIsMisaligned : Prop :=
  ∀ (s : State) (a : Addr), s.inst.phase = .executed → s.run = .running → s.machine.successor = a.setWidth 65 →
    a ≠ s.progEnd → s.layoutSupplied = true → s.WalkReadable → ¬ s.Boundary a.toNat →
    ∃ u t, step s = .next u ∧ step u = .next t ∧ t.inst.phase = .error ∧
      t.inst.err = some (.misalignedAddress a)

/-- R186, R226: a cycle that ends in `ERROR` has its kind and info on `err`, `class_sel = 0`, no operands and no text,
and the machine state and the ports as they were. -/
def Obligations.ErrorLeavesTheMachineAlone : Prop :=
  ∀ s t : State, s.inst.phase = .idle → step s = .next t → t.inst.phase = .error →
    t.inst.err.isSome = true ∧ t.inst.classSel = 0#8 ∧ t.inst.operands = none ∧ t.inst.text = none ∧
    t.machine = s.machine ∧ SamePorts s t

/-- R228: after an error the instance is released, the run has ended and no step retries; the driver may ask for the same
cycle again, and with unchanged memory it raises the same error. -/
def Obligations.SameErrorAgain : Prop :=
  ∀ s t : State, s.inst.phase = .idle → step s = .next t → t.inst.phase = .error →
    ∃ u v, step t = .next u ∧ u.inst = Instance.idle ∧ u.run = .endedAbnormally t.inst.err ∧ step u = .next u ∧
      step (u.request s.reqAddr s.reqTerminal) = .next v ∧ v.inst = t.inst ∧ v.machine = s.machine

/-- R220, R221, R224: the four codes, and that a step of the block only ever signals 0, 2 or 3. -/
def Obligations.ErrorCodesOfTheBlock : Prop :=
  (∀ (a : Addr) (c : BitVec 4) (x y : Int), errCode none = 0#3 ∧ errorCode (.invalidRange x y) = 1#3 ∧
    errorCode (.unknownOpcodeClass c a) = 2#3 ∧ errorCode (.misalignedAddress a) = 3#3 ∧
    errorCode (.unsupportedLayoutUpdate a) = 4#3) ∧
  (∀ s t : State, s.Inv → step s = .next t →
    errCode t.inst.err = 0#3 ∨ errCode t.inst.err = 2#3 ∨ errCode t.inst.err = 3#3)

/-! ### The whole machine -/

/-- R199: the whole cycle as one step is the transitions of R181, one after the other, in every state in `IDLE`. -/
def Obligations.WholeCycleIsItsTransitions : Prop :=
  ∀ s : State, s.inst.phase = .idle → step s = completeCycle 5 s

/-- Every step keeps the invariant: the memory's canonical form, the decode instance exactly as R21 and R181 leave it in
its phase, the layout in order, and no decode instance once the run has ended. -/
def Obligations.StepKeepsTheInvariant : Prop :=
  ∀ s t : State, s.Inv → step s = .next t → t.Inv

/-- The invariant holds at reset. -/
def Obligations.ResetHasTheInvariant : Prop := State.reset.Inv

/-- R250: after reset the block is in `IDLE`, holds no instance and shows no error; and that block state is the same
after any cycle whose instance the driver has released. -/
def Obligations.ResetEqualsReleasedBlock : Prop :=
  State.reset.inst.phase = .idle ∧ State.reset.inst.err = none ∧
  State.reset.inst.addr = none ∧ State.reset.inst.raw = none ∧ State.reset.inst.len = none ∧
  State.reset.inst.fields = none ∧ State.reset.inst.operands = none ∧ State.reset.inst.text = none ∧
  State.reset.layoutSupplied = false ∧
  ∀ s t : State, release s = .next t → t.inst = State.reset.inst

/-- R187: what a cycle shows (fields, bundle, length, `next_addr`, text, error) is a function of the configuration, the
request, the layout and the memory of the program region (with the 16 bytes an instruction at its end may reach), and of
nothing else: not the registers, not the rest of memory. -/
def Obligations.OutputsDependOnTheProgramOnly : Prop :=
  ∀ s s' t : State, AboutToStart s → s'.inst.phase = .idle → SamePorts s s' →
    (∀ a, s.progStart.toNat ≤ a → a < s.progEnd.toNat + 16 → s'.byte a = s.byte a) →
    step s = .next t → ∃ t', step s' = .next t' ∧ t'.inst = t.inst

/-! ### The assembler side -/

/-- R193, R194: a micro-operation list applies its elements first to last, each to the machine state the one before left,
whatever the external type of a micro-operation and its `apply` are. -/
def Obligations.MicroOpsRunInOrder : Prop :=
  ∀ (MicroOp : Type) (apply : MicroOp → MachineState → MachineState),
    (∀ m : MachineState, runMicroOps apply [] m = m) ∧
    (∀ (xs ys : List MicroOp) (op : MicroOp) (m : MachineState),
      runMicroOps apply (xs ++ op :: ys) m = runMicroOps apply ys (apply op (runMicroOps apply xs m)))

/-- R49, R195, R253: a program that is loaded has placed elements of 8 or 16 bytes, each as long as its encoding's own
length, that never overlap and whose union is the region from `PROG_START` to `PROG_END`; the block reads the program
back: the walk is readable, its boundaries are the elements' addresses and `PROG_END`, and at each address stand the
bytes of its instruction. The loading itself is the model's (log 15). -/
def Obligations.LoadedProgramIsTheRegion : Prop :=
  ∀ (MicroOp : Type) (lo hi : Addr) (prog : List (AsmInstruction MicroOp)) (s t : State),
    loadProgram lo hi prog s = .next t →
    t.progStart = lo ∧ t.progEnd = hi ∧ t.layoutSupplied = true ∧
    noOverlap (elementsOf prog) = true ∧
    (∀ a, covered (elementsOf prog) a = true ↔ lo.toNat ≤ a ∧ a < hi.toNat) ∧
    (∀ i ∈ prog, (i.element.size = 8 ∨ i.element.size = 16) ∧
      i.element.size = (frameLength t.config.frameRule (encode t.config i.instr)).bytes ∧
      memRead t.machine.mem i.address.toNat i.element.size = .next (encode t.config i.instr)) ∧
    t.WalkReadable ∧
    (∀ a, t.Boundary a ↔ a = hi.toNat ∨ ∃ i ∈ prog, a = i.address.toNat)

/-- R196: the default update hook fails loudly for every element. -/
def Obligations.DefaultUpdateIsUnsupported : Prop :=
  ∀ e : PlacedElement, defaultUpdate e = .error (.unsupportedLayoutUpdate e.address)
end

