-- ==== Sys2Proof/Laws/State.lean ====
section
/-! SUPPORT. What every update of State does to every field, by unfolding the record update once. -/

namespace Sys2Proof.Machine

/-! ### raiseError -/

@[simp] theorem raiseError_config (e : BlockError) (s : State) : (raiseError e s).config = s.config := rfl
@[simp] theorem raiseError_progStart (e : BlockError) (s : State) : (raiseError e s).progStart = s.progStart := rfl
@[simp] theorem raiseError_progEnd (e : BlockError) (s : State) : (raiseError e s).progEnd = s.progEnd := rfl
@[simp] theorem raiseError_layoutSupplied (e : BlockError) (s : State) : (raiseError e s).layoutSupplied = s.layoutSupplied := rfl
@[simp] theorem raiseError_reqAddr (e : BlockError) (s : State) : (raiseError e s).reqAddr = s.reqAddr := rfl
@[simp] theorem raiseError_reqTerminal (e : BlockError) (s : State) : (raiseError e s).reqTerminal = s.reqTerminal := rfl
@[simp] theorem raiseError_run (e : BlockError) (s : State) : (raiseError e s).run = s.run := rfl
@[simp] theorem raiseError_inst (e : BlockError) (s : State) : (raiseError e s).inst = { s.inst with phase := .error, classSel := 0#8, operands := none, text := none, err := some e } := rfl
@[simp] theorem raiseError_machine (e : BlockError) (s : State) : (raiseError e s).machine = s.machine := rfl

/-! ### disassembled -/

@[simp] theorem disassembled_config (c : ClassId) (F : Fields) (O : Bundle) (s : State) : (disassembled c F O s).config = s.config := rfl
@[simp] theorem disassembled_progStart (c : ClassId) (F : Fields) (O : Bundle) (s : State) : (disassembled c F O s).progStart = s.progStart := rfl
@[simp] theorem disassembled_progEnd (c : ClassId) (F : Fields) (O : Bundle) (s : State) : (disassembled c F O s).progEnd = s.progEnd := rfl
@[simp] theorem disassembled_layoutSupplied (c : ClassId) (F : Fields) (O : Bundle) (s : State) : (disassembled c F O s).layoutSupplied = s.layoutSupplied := rfl
@[simp] theorem disassembled_reqAddr (c : ClassId) (F : Fields) (O : Bundle) (s : State) : (disassembled c F O s).reqAddr = s.reqAddr := rfl
@[simp] theorem disassembled_reqTerminal (c : ClassId) (F : Fields) (O : Bundle) (s : State) : (disassembled c F O s).reqTerminal = s.reqTerminal := rfl
@[simp] theorem disassembled_run (c : ClassId) (F : Fields) (O : Bundle) (s : State) : (disassembled c F O s).run = s.run := rfl
@[simp] theorem disassembled_inst (c : ClassId) (F : Fields) (O : Bundle) (s : State) : (disassembled c F O s).inst = { s.inst with phase := .disassembled, text := some (formatLine s.config.extRole c F O) } := rfl
@[simp] theorem disassembled_machine (c : ClassId) (F : Fields) (O : Bundle) (s : State) : (disassembled c F O s).machine = s.machine := rfl

/-! ### executed -/

@[simp] theorem executed_config (c : ClassId) (F : Fields) (O : Bundle) (n : NextAddr) (s : State) : (executed c F O n s).config = s.config := rfl
@[simp] theorem executed_progStart (c : ClassId) (F : Fields) (O : Bundle) (n : NextAddr) (s : State) : (executed c F O n s).progStart = s.progStart := rfl
@[simp] theorem executed_progEnd (c : ClassId) (F : Fields) (O : Bundle) (n : NextAddr) (s : State) : (executed c F O n s).progEnd = s.progEnd := rfl
@[simp] theorem executed_layoutSupplied (c : ClassId) (F : Fields) (O : Bundle) (n : NextAddr) (s : State) : (executed c F O n s).layoutSupplied = s.layoutSupplied := rfl
@[simp] theorem executed_reqAddr (c : ClassId) (F : Fields) (O : Bundle) (n : NextAddr) (s : State) : (executed c F O n s).reqAddr = s.reqAddr := rfl
@[simp] theorem executed_reqTerminal (c : ClassId) (F : Fields) (O : Bundle) (n : NextAddr) (s : State) : (executed c F O n s).reqTerminal = s.reqTerminal := rfl
@[simp] theorem executed_run (c : ClassId) (F : Fields) (O : Bundle) (n : NextAddr) (s : State) : (executed c F O n s).run = s.run := rfl
@[simp] theorem executed_inst (c : ClassId) (F : Fields) (O : Bundle) (n : NextAddr) (s : State) : (executed c F O n s).inst = { s.inst with phase := .executed, text := none } := rfl
@[simp] theorem executed_machine (c : ClassId) (F : Fields) (O : Bundle) (n : NextAddr) (s : State) : (executed c F O n s).machine = runExec s.config.extRole c F O s.machine n := rfl

/-! ### presented -/

@[simp] theorem presented_config (h : Header) (d : BitVec 32) (x : Option Word) (s : State) : (presented h d x s).config = s.config := rfl
@[simp] theorem presented_progStart (h : Header) (d : BitVec 32) (x : Option Word) (s : State) : (presented h d x s).progStart = s.progStart := rfl
@[simp] theorem presented_progEnd (h : Header) (d : BitVec 32) (x : Option Word) (s : State) : (presented h d x s).progEnd = s.progEnd := rfl
@[simp] theorem presented_layoutSupplied (h : Header) (d : BitVec 32) (x : Option Word) (s : State) : (presented h d x s).layoutSupplied = s.layoutSupplied := rfl
@[simp] theorem presented_reqAddr (h : Header) (d : BitVec 32) (x : Option Word) (s : State) : (presented h d x s).reqAddr = s.reqAddr := rfl
@[simp] theorem presented_reqTerminal (h : Header) (d : BitVec 32) (x : Option Word) (s : State) : (presented h d x s).reqTerminal = s.reqTerminal := rfl
@[simp] theorem presented_run (h : Header) (d : BitVec 32) (x : Option Word) (s : State) : (presented h d x s).run = s.run := rfl
@[simp] theorem presented_inst (h : Header) (d : BitVec 32) (x : Option Word) (s : State) : (presented h d x s).inst = Instance.atFieldsDecoded s.reqAddr (encodeBytes s.config.payloadOrder h d x) (formatOf x) (fieldsAt s.reqAddr h d x) := rfl
@[simp] theorem presented_machine (h : Header) (d : BitVec 32) (x : Option Word) (s : State) : (presented h d x s).machine = s.machine := rfl

/-! ### request -/

@[simp] theorem request_config (s : State) (a : Addr) (t : Terminal) : (s.request a t).config = s.config := rfl
@[simp] theorem request_progStart (s : State) (a : Addr) (t : Terminal) : (s.request a t).progStart = s.progStart := rfl
@[simp] theorem request_progEnd (s : State) (a : Addr) (t : Terminal) : (s.request a t).progEnd = s.progEnd := rfl
@[simp] theorem request_layoutSupplied (s : State) (a : Addr) (t : Terminal) : (s.request a t).layoutSupplied = s.layoutSupplied := rfl
@[simp] theorem request_reqAddr (s : State) (a : Addr) (t : Terminal) : (s.request a t).reqAddr = a := rfl
@[simp] theorem request_reqTerminal (s : State) (a : Addr) (t : Terminal) : (s.request a t).reqTerminal = t := rfl
@[simp] theorem request_run (s : State) (a : Addr) (t : Terminal) : (s.request a t).run = .running := rfl
@[simp] theorem request_inst (s : State) (a : Addr) (t : Terminal) : (s.request a t).inst = s.inst := rfl
@[simp] theorem request_machine (s : State) (a : Addr) (t : Terminal) : (s.request a t).machine = s.machine := rfl

/-! ### startAt -/

@[simp] theorem startAt_config (s : State) (a : Addr) (t : Terminal) :
    (s.startAt a t).config = s.config := rfl
@[simp] theorem startAt_progStart (s : State) (a : Addr) (t : Terminal) :
    (s.startAt a t).progStart = s.progStart := rfl
@[simp] theorem startAt_progEnd (s : State) (a : Addr) (t : Terminal) :
    (s.startAt a t).progEnd = s.progEnd := rfl
@[simp] theorem startAt_layoutSupplied (s : State) (a : Addr) (t : Terminal) :
    (s.startAt a t).layoutSupplied = s.layoutSupplied := rfl
@[simp] theorem startAt_reqAddr (s : State) (a : Addr) (t : Terminal) :
    (s.startAt a t).reqAddr = a := rfl
@[simp] theorem startAt_reqTerminal (s : State) (a : Addr) (t : Terminal) :
    (s.startAt a t).reqTerminal = t := rfl
@[simp] theorem startAt_run (s : State) (a : Addr) (t : Terminal) :
    (s.startAt a t).run = .running := rfl
@[simp] theorem startAt_inst (s : State) (a : Addr) (t : Terminal) :
    (s.startAt a t).inst = Instance.idle := rfl
@[simp] theorem startAt_machine (s : State) (a : Addr) (t : Terminal) :
    (s.startAt a t).machine = s.machine := rfl

/-! ### startRun -/

@[simp] theorem startRun_config (s : State) : s.startRun.config = s.config := rfl
@[simp] theorem startRun_progStart (s : State) : s.startRun.progStart = s.progStart := rfl
@[simp] theorem startRun_progEnd (s : State) : s.startRun.progEnd = s.progEnd := rfl
@[simp] theorem startRun_layoutSupplied (s : State) : s.startRun.layoutSupplied = s.layoutSupplied := rfl
@[simp] theorem startRun_reqAddr (s : State) : s.startRun.reqAddr = s.progStart := rfl
@[simp] theorem startRun_reqTerminal (s : State) : s.startRun.reqTerminal = .execute := rfl
@[simp] theorem startRun_run (s : State) : s.startRun.run = .running := rfl
@[simp] theorem startRun_inst (s : State) : s.startRun.inst = Instance.idle := rfl
@[simp] theorem startRun_machine (s : State) : s.startRun.machine = s.machine := rfl

/-! ### setReg -/

@[simp] theorem setReg_config (s : State) (i : RegId) (v : Word) : (s.setReg i v).config = s.config := rfl
@[simp] theorem setReg_progStart (s : State) (i : RegId) (v : Word) : (s.setReg i v).progStart = s.progStart := rfl
@[simp] theorem setReg_progEnd (s : State) (i : RegId) (v : Word) : (s.setReg i v).progEnd = s.progEnd := rfl
@[simp] theorem setReg_layoutSupplied (s : State) (i : RegId) (v : Word) : (s.setReg i v).layoutSupplied = s.layoutSupplied := rfl
@[simp] theorem setReg_reqAddr (s : State) (i : RegId) (v : Word) : (s.setReg i v).reqAddr = s.reqAddr := rfl
@[simp] theorem setReg_reqTerminal (s : State) (i : RegId) (v : Word) : (s.setReg i v).reqTerminal = s.reqTerminal := rfl
@[simp] theorem setReg_run (s : State) (i : RegId) (v : Word) : (s.setReg i v).run = s.run := rfl
@[simp] theorem setReg_inst (s : State) (i : RegId) (v : Word) : (s.setReg i v).inst = s.inst := rfl
@[simp] theorem setReg_machine (s : State) (i : RegId) (v : Word) : (s.setReg i v).machine = { s.machine with regs := writeReg s.machine.regs i v } := rfl

/-! ### toTerminal, which keeps everything but the instance and the machine -/

@[simp] theorem toTerminal_config (c : ClassId) (F : Fields) (O : Bundle) (n : NextAddr) (s : State) :
    (toTerminal c F O n s).config = s.config := by unfold toTerminal; split <;> rfl
@[simp] theorem toTerminal_progStart (c : ClassId) (F : Fields) (O : Bundle) (n : NextAddr) (s : State) :
    (toTerminal c F O n s).progStart = s.progStart := by unfold toTerminal; split <;> rfl
@[simp] theorem toTerminal_progEnd (c : ClassId) (F : Fields) (O : Bundle) (n : NextAddr) (s : State) :
    (toTerminal c F O n s).progEnd = s.progEnd := by unfold toTerminal; split <;> rfl
@[simp] theorem toTerminal_layoutSupplied (c : ClassId) (F : Fields) (O : Bundle) (n : NextAddr) (s : State) :
    (toTerminal c F O n s).layoutSupplied = s.layoutSupplied := by unfold toTerminal; split <;> rfl
@[simp] theorem toTerminal_reqAddr (c : ClassId) (F : Fields) (O : Bundle) (n : NextAddr) (s : State) :
    (toTerminal c F O n s).reqAddr = s.reqAddr := by unfold toTerminal; split <;> rfl
@[simp] theorem toTerminal_reqTerminal (c : ClassId) (F : Fields) (O : Bundle) (n : NextAddr) (s : State) :
    (toTerminal c F O n s).reqTerminal = s.reqTerminal := by unfold toTerminal; split <;> rfl
@[simp] theorem toTerminal_run (c : ClassId) (F : Fields) (O : Bundle) (n : NextAddr) (s : State) :
    (toTerminal c F O n s).run = s.run := by unfold toTerminal; split <;> rfl

/-! ### The external machine -/

@[simp] theorem applyEffect_regs (e : Effect) (n : NextAddr) (m : MachineState) :
    (applyEffect e n m).regs = applyRegWrites m.regs e.regWrites := rfl
@[simp] theorem applyEffect_mem (e : Effect) (n : NextAddr) (m : MachineState) :
    (applyEffect e n m).mem = applyMemWrites m.mem e.memWrites := rfl
@[simp] theorem applyEffect_successor (e : Effect) (n : NextAddr) (m : MachineState) :
    (applyEffect e n m).successor = successorOf e n := rfl

/-! ### Results -/

@[simp] theorem andThen_next {α β : Type} (a : α) (f : α → Res β) : andThen (.next a) f = f a := rfl
@[simp] theorem andThen_fault {α β : Type} (e : Fault) (f : α → Res β) : andThen (.fault e) f = .fault e := rfl
@[simp] theorem andThen_refused {α β : Type} (e : Refusal) (f : α → Res β) : andThen (.refused e) f = .refused e := rfl

/-- `andThen` answers next only through a next answer of its first part. -/
theorem andThen_eq_next {α β : Type} {r : Res α} {f : α → Res β} {b : β} (h : andThen r f = .next b) :
    ∃ a, r = .next a ∧ f a = .next b := by
  cases r with
  | next a => exact ⟨a, rfl, h⟩
  | fault e => cases h
  | refused e => cases h

end Sys2Proof.Machine
end

