-- ==== Sys2Proof/Laws/Memory.lean ====
section
/-! SUPPORT. The laws of memory and registers: read after write, the canonical form, and what a read answers. -/

namespace Sys2Proof.Machine

/-- A byte reads back as written, and every other address reads as before. -/
theorem readByte_writeByte (m : Memory) (a x : Nat) (b : Byte) :
    readByte (writeByte m a b) x = if x = a then some b else readByte m x := by
  induction m with
  | nil => simp [writeByte, readByte]
  | cons c m ih =>
    obtain ⟨k, v⟩ := c
    simp only [writeByte]
    split_ifs with h1 h2 <;> simp only [readByte, ih] <;> split_ifs <;> first | rfl | omega

/-- The form of `Memory.wf` as propositions. -/
theorem wf_iff (m : Memory) :
    Memory.wf m = true ↔ (m.map Prod.fst).Pairwise (· < ·) ∧ ∀ c ∈ m, c.1 < addressSpace := by
  simp [Memory.wf]

/-- The addresses after a write are the old ones and the one written. -/
theorem mem_writeByte {m : Memory} {a : Nat} {b : Byte} {k : Nat} :
    k ∈ (writeByte m a b).map Prod.fst → k = a ∨ k ∈ m.map Prod.fst := by
  induction m with
  | nil => simp [writeByte]
  | cons c m ih =>
    obtain ⟨j, v⟩ := c
    simp only [writeByte]
    split_ifs with h1 h2
    · intro h
      simpa using h
    · intro h
      simp only [List.map_cons, List.mem_cons] at h ⊢
      exact h.imp id .inr
    · intro h
      simp only [List.map_cons, List.mem_cons] at h ⊢
      rcases h with h | h
      · exact .inr (.inl h)
      · rcases ih h with h | h
        · exact .inl h
        · exact .inr (.inr h)

/-- A write inside the address space keeps the canonical form. -/
theorem wf_writeByte {m : Memory} {a : Nat} {b : Byte} (ha : a < addressSpace) (h : Memory.wf m = true) :
    Memory.wf (writeByte m a b) = true := by
  induction m with
  | nil => simp [writeByte, Memory.wf, ha]
  | cons c m ih =>
    obtain ⟨k, v⟩ := c
    rw [wf_iff] at h
    obtain ⟨hp, hb⟩ := h
    rw [List.map_cons, List.pairwise_cons] at hp
    have hm : Memory.wf m = true := (wf_iff m).2 ⟨hp.2, fun c hc => hb c (List.mem_cons_of_mem _ hc)⟩
    simp only [writeByte]
    split_ifs with h1 h2
    · refine (wf_iff _).2 ⟨?_, ?_⟩
      · rw [List.map_cons, List.pairwise_cons]
        refine ⟨fun x hx => ?_, by rw [List.map_cons, List.pairwise_cons]; exact hp⟩
        rw [List.map_cons, List.mem_cons] at hx
        rcases hx with rfl | hx
        · exact h1
        · exact Nat.lt_trans h1 (hp.1 x hx)
      · intro c hc
        rcases List.mem_cons.1 hc with rfl | hc
        · exact ha
        · exact hb c hc
    · subst h2
      refine (wf_iff _).2 ⟨?_, ?_⟩
      · rw [List.map_cons, List.pairwise_cons]
        exact hp
      · intro c hc
        rcases List.mem_cons.1 hc with rfl | hc
        · exact ha
        · exact hb c (List.mem_cons_of_mem _ hc)
    · have hw := (wf_iff _).1 (ih hm)
      refine (wf_iff _).2 ⟨?_, ?_⟩
      · rw [List.map_cons, List.pairwise_cons]
        refine ⟨fun x hx => ?_, hw.1⟩
        rcases mem_writeByte hx with rfl | hx
        · show k < x
          omega
        · exact hp.1 x hx
      · intro c hc
        rcases List.mem_cons.1 hc with rfl | hc
        · exact hb (k, v) (List.mem_cons_self)
        · exact hw.2 c hc

/-- The handler's memory writes keep the canonical form: every address of theirs is a 64-bit address. -/
theorem wf_applyMemWrites {m : Memory} (ws : List (Addr × Byte)) (h : Memory.wf m = true) :
    Memory.wf (applyMemWrites m ws) = true := by
  induction ws generalizing m with
  | nil => exact h
  | cons w ws ih =>
    obtain ⟨a, b⟩ := w
    exact ih (wf_writeByte a.isLt h)

/-- A sequence of writes that stays in the address space keeps the canonical form. -/
theorem wf_writeSeq {m : Memory} {a : Nat} {bs : List Byte} (ha : a + bs.length ≤ addressSpace)
    (h : Memory.wf m = true) : Memory.wf (writeSeq m a bs) = true := by
  induction bs generalizing m a with
  | nil => exact h
  | cons b bs ih =>
    simp only [List.length_cons] at ha
    exact ih (by omega) (wf_writeByte (by omega) h)

/-- `MemWrite` keeps the canonical form. -/
theorem wf_memWrite {m m' : Memory} {a : Nat} {bs : List Byte} (h : Memory.wf m = true)
    (hw : memWrite m a bs = .next m') : Memory.wf m' = true := by
  unfold memWrite at hw
  split at hw
  · cases hw
  · cases hw
    exact wf_writeSeq (by omega) h

/-- The memory at reset has the canonical form. -/
theorem wf_reset : Memory.wf State.reset.machine.mem = true := by decide

/-- A handler's memory writes change no byte they do not name. -/
theorem readByte_applyMemWrites_of_notMem {m : Memory} {ws : List (Addr × Byte)} {x : Nat}
    (h : ∀ w ∈ ws, w.1.toNat ≠ x) : readByte (applyMemWrites m ws) x = readByte m x := by
  induction ws generalizing m with
  | nil => rfl
  | cons w ws ih =>
    obtain ⟨a, b⟩ := w
    simp only [applyMemWrites]
    rw [ih fun v hv => h v (List.mem_cons_of_mem _ hv), readByte_writeByte]
    have := h (a, b) List.mem_cons_self
    simp only at this
    rw [if_neg (fun e => this e.symm)]

/-- A register reads back as written, and every other register reads as before. -/
theorem readReg_writeReg (regs : Vector Word 16) (i j : RegId) (v : Word) :
    readReg (writeReg regs i v) j = if j = i then v else readReg regs j := by
  unfold readReg writeReg
  rw [Vector.getElem_set]
  by_cases h : j = i
  · simp [h]
  · have : i.toNat ≠ j.toNat := fun e => h (BitVec.eq_of_toNat_eq e.symm)
    simp [h, this]

/-- A handler's register writes change no register they do not name. -/
theorem readReg_applyRegWrites_of_notMem {regs : Vector Word 16} {ws : List (RegId × Word)} {j : RegId}
    (h : ∀ w ∈ ws, w.1 ≠ j) : readReg (applyRegWrites regs ws) j = readReg regs j := by
  induction ws generalizing regs with
  | nil => rfl
  | cons w ws ih =>
    obtain ⟨i, v⟩ := w
    simp only [applyRegWrites]
    rw [ih fun u hu => h u (List.mem_cons_of_mem _ hu), readReg_writeReg]
    rw [if_neg (fun e => h (i, v) List.mem_cons_self e.symm)]

/-- A sequence that is read has the length asked for. -/
theorem readSeq_length {m : Memory} {a n : Nat} {bs : List Byte} (h : readSeq m a n = .next bs) : bs.length = n := by
  induction n generalizing a bs with
  | zero => cases h; rfl
  | succ n ih =>
    simp only [readSeq] at h
    split at h
    · cases h
    · obtain ⟨cs, hc, hb⟩ := andThen_eq_next h
      cases hb
      simp [ih hc]

/-- What `MemRead` answers next says: the access stays in the address space, the sequence is read, its length is `n`. -/
theorem memRead_eq_next {m : Memory} {a n : Nat} {bs : List Byte} (h : memRead m a n = .next bs) :
    a + n ≤ addressSpace ∧ readSeq m a n = .next bs ∧ bs.length = n := by
  unfold memRead at h
  split at h
  · cases h
  · exact ⟨by omega, h, readSeq_length h⟩

/-- Reading `n + k` bytes is reading `n` and then `k` (R44: reading 16 bytes at once gives the same bytes). -/
theorem readSeq_add (m : Memory) (a n k : Nat) :
    readSeq m a (n + k) = andThen (readSeq m a n) fun B => andThen (readSeq m (a + n) k) fun C => .next (B ++ C) := by
  induction n generalizing a with
  | zero =>
    simp only [Nat.zero_add, readSeq, andThen_next, Nat.add_zero]
    cases readSeq m a k <;> rfl
  | succ n ih =>
    rw [Nat.add_right_comm]
    simp only [readSeq]
    cases readByte m a with
    | none => rfl
    | some b =>
      rw [ih, show a + 1 + n = a + (n + 1) by omega]
      cases readSeq m (a + 1) n with
      | next B => cases readSeq m (a + (n + 1)) k <;> simp
      | fault e => rfl
      | refused e => rfl

end Sys2Proof.Machine
end

