-- ==== Sys2Proof/Laws/Assembler.lean ====
section
/-! SUPPORT. What the layout pass and the loading of a program can do, said once. -/

namespace Sys2Proof.Machine

/-- A gap-free list never ends before it starts. -/
theorem gapFree_le {lo hi : Nat} {es : List PlacedElement} (h : gapFree lo hi es = true) : lo ≤ hi := by
  induction es generalizing lo with
  | nil =>
    simp only [gapFree, decide_eq_true_eq] at h
    omega
  | cons e es ih =>
    simp only [gapFree, Bool.and_eq_true, decide_eq_true_eq] at h
    have := ih h.2
    simp only [PlacedElement.stop] at this
    omega

/-- Storing a program inside the address space keeps the canonical form. -/
theorem wf_storeProgram {MicroOp : Type} {cfg : Config} {prog : List (AsmInstruction MicroOp)} {m : Memory}
    (fits : ∀ i ∈ prog, i.address.toNat + (encode cfg i.instr).length ≤ addressSpace) (h : Memory.wf m = true) :
    Memory.wf (storeProgram cfg prog m) = true := by
  induction prog generalizing m with
  | nil => exact h
  | cons i is ih =>
    exact ih (fun j hj => fits j (List.mem_cons_of_mem _ hj)) (wf_writeSeq (fits i List.mem_cons_self) h)

/-- If a program is loaded, its layout was finished, and the state has its bytes and its two addresses, all else kept. -/
theorem loadProgram_eq_next {MicroOp : Type} {lo hi : Addr} {prog : List (AsmInstruction MicroOp)} {s t : State}
    (e : loadProgram lo hi prog s = .next t) :
    layoutOk s.config lo hi prog = true ∧ lo ≤ hi ∧
    t = { s with
      progStart := lo, progEnd := hi, layoutSupplied := true,
      machine := { s.machine with mem := storeProgram s.config prog s.machine.mem } } := by
  unfold loadProgram at e
  split at e
  · rename_i ok
    unfold supplyLayout at e
    split at e
    · rename_i le
      cases e
      exact ⟨ok, le, rfl⟩
    · cases e
  · cases e

end Sys2Proof.Machine
end

