-- ==== Sys2Proof/Laws/Cycle.lean ====
section
/-! SUPPORT. What each shared operation of the decode cycle can do, said once. -/

namespace Sys2Proof.Machine

/-- A class meaning completes exactly when the instruction does not pass `2^64`. -/
theorem classCycle_next {c : ClassId} {h : Header} {d : BitVec 32} {x : Option Word} {s : State}
    (room : passesTop s.reqAddr (formatOf x) = false) :
    classCycle c h d x s = .next (toTerminal c (fieldsAt s.reqAddr h d x)
      (resolveOperands s.config (fieldsAt s.reqAddr h d x)) (nextAddrOf s.reqAddr (formatOf x))
      { presented h d x s with
        inst := resolved c s.config (fieldsAt s.reqAddr h d x) (presented h d x s).inst }) := by
  unfold classCycle
  simp [room]

/-- If a class meaning answers next, it had room, and the state is the terminal's. -/
theorem classCycle_eq_next {c : ClassId} {h : Header} {d : BitVec 32} {x : Option Word} {s t : State}
    (e : classCycle c h d x s = .next t) :
    passesTop s.reqAddr (formatOf x) = false ∧
    t = toTerminal c (fieldsAt s.reqAddr h d x) (resolveOperands s.config (fieldsAt s.reqAddr h d x))
      (nextAddrOf s.reqAddr (formatOf x))
      { presented h d x s with
        inst := resolved c s.config (fieldsAt s.reqAddr h d x) (presented h d x s).inst } := by
  by_cases room : passesTop s.reqAddr (formatOf x) = false
  · rw [classCycle_next room] at e
    cases e
    exact ⟨room, rfl⟩
  · rw [classCycle, if_pos (by simpa using room)] at e
    cases e

/-- The unknown-class meaning completes exactly when the instruction does not pass `2^64`. -/
theorem unknownClassCycle_next {cls : BitVec 4} {h : Header} {d : BitVec 32} {s : State}
    (room : passesTop s.reqAddr .f8 = false) :
    unknownClassCycle cls h d s = .next (raiseError (.unknownOpcodeClass cls s.reqAddr) (presented h d none s)) := by
  unfold unknownClassCycle
  simp [room]

/-- If the unknown-class meaning answers next, it had room and raised the error. -/
theorem unknownClassCycle_eq_next {cls : BitVec 4} {h : Header} {d : BitVec 32} {s t : State}
    (e : unknownClassCycle cls h d s = .next t) :
    passesTop s.reqAddr .f8 = false ∧
    t = raiseError (.unknownOpcodeClass cls s.reqAddr) (presented h d none s) := by
  by_cases room : passesTop s.reqAddr .f8 = false
  · rw [unknownClassCycle_next room] at e
    cases e
    exact ⟨room, rfl⟩
  · rw [unknownClassCycle, if_pos (by simpa using room)] at e
    cases e

/-- The two terminals, one at a time. -/
theorem toTerminal_cases (c : ClassId) (F : Fields) (O : Bundle) (n : NextAddr) (s : State) :
    (s.reqTerminal = .disassemble ∧ toTerminal c F O n s = disassembled c F O s) ∨
    (s.reqTerminal = .execute ∧ toTerminal c F O n s = executed c F O n s) := by
  cases h : s.reqTerminal
  · exact .inl ⟨rfl, by simp [toTerminal, h]⟩
  · exact .inr ⟨rfl, by simp [toTerminal, h]⟩

/-- Every meaning is the class cycle of its instruction's fields, or the unknown-class cycle. -/
theorem exec_eq (i : Instr) (s : State) :
    (∃ c, exec i s = classCycle c i.header i.slots.disp32 i.ext64 s ∧ i.header.cls = c.setWidth 4) ∨
    (∃ cls ss di c, i = .unknownClass cls ss di c ∧
      exec i s = unknownClassCycle cls i.header i.slots.disp32 s) := by
  cases i <;> first
    | exact .inr ⟨_, _, _, _, rfl, rfl⟩
    | exact .inl ⟨_, rfl, rfl⟩

/-- What a decode cycle that answers next has done: raised `MisalignedAddress` before any fetch, or fetched the bytes of
one instruction and run its meaning. -/
theorem decodeCycleWith_eq_next {meaning : Instr → State → Res State} {s t : State}
    (e : decodeCycleWith meaning s = .next t) :
    s.layoutSupplied = true ∧
    ((s.checkRequest = .next false ∧
        t = raiseError (.misalignedAddress s.reqAddr) { s with inst := Instance.idle }) ∨
     (s.checkRequest = .next true ∧ s.reqAddr < s.progEnd ∧ ∃ B i r, fetchInstr s = .next B ∧
        decode s.config B = .ok (i, r) ∧ meaning i s = .next t)) := by
  unfold decodeCycleWith at e
  split at e
  · cases e
  · rename_i hl
    refine ⟨by simpa using hl, ?_⟩
    obtain ⟨ok, hok, e⟩ := andThen_eq_next e
    cases ok with
    | false =>
      simp only [if_true] at e
      cases e
      exact .inl ⟨hok, rfl⟩
    | true =>
      simp only [Bool.true_eq_false, if_false] at e
      split at e
      · cases e
      · rename_i hlt
        obtain ⟨B, hB, e⟩ := andThen_eq_next e
        split at e
        · rename_i i r hd
          exact .inr ⟨hok, by simpa [BitVec.not_le] using hlt, B, i, r, hB, hd, e⟩
        · cases e

/-- A release keeps everything but the instance, the run, which ends after an error and at `PROG_END`, and, after an
executed cycle, the request address. -/
theorem release_eq_next {s t : State} (e : release s = .next t) :
    t.inst = Instance.idle ∧ t.machine = s.machine ∧ t.config = s.config ∧ t.progStart = s.progStart ∧
    t.progEnd = s.progEnd ∧ t.layoutSupplied = s.layoutSupplied ∧ t.reqTerminal = s.reqTerminal ∧
    (s.inst.phase = .executed ∧ t.reqAddr = s.machine.successor.setWidth 64 ∧
        t.run = runAfter s.progEnd s.machine.successor s.run ∨
      s.inst.phase = .error ∧ t.reqAddr = s.reqAddr ∧ t.run = .endedAbnormally s.inst.err ∨
      s.inst.phase ≠ .executed ∧ s.inst.phase ≠ .error ∧ t.reqAddr = s.reqAddr ∧ t.run = s.run) := by
  unfold release at e
  split at e
  · rename_i hp
    split at e
    · cases e
    · cases e
      exact ⟨rfl, rfl, rfl, rfl, rfl, rfl, rfl, .inl ⟨hp, rfl, rfl⟩⟩
  · rename_i hp
    cases e
    exact ⟨rfl, rfl, rfl, rfl, rfl, rfl, rfl, .inr (.inl ⟨hp, rfl, rfl⟩)⟩
  all_goals
    rename_i hp
    cases e
    refine ⟨rfl, rfl, rfl, rfl, rfl, rfl, rfl, .inr (.inr ⟨?_, ?_, rfl, rfl⟩)⟩ <;> rw [hp] <;> decide

/-- What the driver's move in `IDLE` does: it starts the cycle while the run goes on, and nothing after it has ended. -/
theorem whileRunning_cases (start : State → Res State) (s : State) :
    (s.run = .running ∧ whileRunning start s = start s) ∨ (s.run ≠ .running ∧ whileRunning start s = .next s) := by
  cases h : s.run with
  | running => exact .inl ⟨rfl, by simp [whileRunning, h]⟩
  | endedNormally => exact .inr ⟨by decide, by simp [whileRunning, h]⟩
  | endedAbnormally e => exact .inr ⟨nofun, by simp [whileRunning, h]⟩

end Sys2Proof.Machine
end

