-- ==== Sys2Proof/Laws/Decode.lean ====
section
/-! SUPPORT. The laws of the decoder: what an answer of `decode` says, and what `instrOf` keeps of a header. -/

namespace Sys2Proof

/-- Every length is 8 or 16. -/
theorem Format.bytes_cases (f : Format) : f.bytes = 8 ∨ f.bytes = 16 := by cases f <;> simp [Format.bytes]

/-- What the decoder's answer says. -/
theorem decode_eq_ok {cfg : Config} {B r : List Byte} {i : Instr} (h : decode cfg B = .ok (i, r)) :
    (frameLength cfg.frameRule B).bytes ≤ B.length ∧
    i = instrOf cfg.frameRule (headerOf B) (disp32Of cfg.payloadOrder B) (ext64Of cfg.payloadOrder B) ∧
    r = B.drop (frameLength cfg.frameRule B).bytes := by
  unfold decode at h
  split at h
  · cases h
  · split at h
    · cases h
    · cases h
      exact ⟨by omega, rfl, rfl⟩

/-- Enough bytes always decode (R77). -/
theorem decode_total {cfg : Config} {B : List Byte} (h : (frameLength cfg.frameRule B).bytes ≤ B.length) :
    decode cfg B = .ok (instrOf cfg.frameRule (headerOf B) (disp32Of cfg.payloadOrder B)
      (ext64Of cfg.payloadOrder B), B.drop (frameLength cfg.frameRule B).bytes) := by
  have := Format.bytes_cases (frameLength cfg.frameRule B)
  unfold decode
  rw [if_neg (by omega), if_neg (by omega)]

/-- The slots of a header's tail give the header back with its own `class`, `ss` and `di`. -/
@[simp] theorem Header.slots_header (h : Header) (d : BitVec 32) :
    (h.slots d).header h.cls h.ss h.di = h := rfl

/-- The slots of a row's header give the slots back. -/
@[simp] theorem Slots.header_slots (c : Slots) (cls : BitVec 4) (ss di : BitVec 2) :
    (c.header cls ss di).slots c.disp32 = c := rfl

end Sys2Proof
end

