-- ==== Sys2Proof/Laws/PerInstr.lean ====
section
/-! SUPPORT. Statements made per instruction. Family RoundTrip: the row that the decoder finds for the fields of a
well-formed instruction is that instruction. -/

namespace Sys2Proof.Laws.RoundTrip

/-- The fields of a well-formed instruction lead the decoder back to it, whatever value the absent 8-byte field of an
8-byte instruction has. -/
def Statement (i : Instr) : Prop :=
  ∀ (rule : FrameRule) (e : Word), i.wellFormed rule = true →
    instrOf rule i.header i.slots.disp32 (i.ext64.getD e) = i

theorem class0F8 (ss : BitVec 2) (di : BitVec 2) (c : Slots) : Statement (.class0F8 ss di c) := by
  intro rule e _
  simp [instrOf, Instr.header, Instr.slots, Slots.header, Header.slots]

theorem class1F16Memext (ss : BitVec 2) (c : Slots) (ext64 : Word) : Statement (.class1F16Memext ss c ext64) := by
  intro rule e h
  revert h
  cases rule <;>
    simp [instrOf, class1Row, Instr.wellFormed, Instr.header, Instr.slots, Instr.ext64, Slots.header, Header.slots]

theorem class1F16Imm64 (c : Slots) (ext64 : Word) : Statement (.class1F16Imm64 c ext64) := by
  intro rule e h
  revert h
  cases rule <;>
    simp [instrOf, class1Row, Instr.wellFormed, Instr.header, Instr.slots, Instr.ext64, Slots.header, Header.slots]

theorem class1F8Regreg (ss : BitVec 2) (c : Slots) : Statement (.class1F8Regreg ss c) := by
  intro rule e h
  revert h
  cases rule
  · simp [instrOf, class1Row, Instr.header, Instr.slots, Slots.header, Header.slots]
  · simp [instrOf, class1Row, Instr.wellFormed, Instr.header, Instr.slots, Slots.header, Header.slots]
    exact fun h hi hs => h.elim (· hi) (· hs)

theorem class1F8Mem (ss : BitVec 2) (c : Slots) : Statement (.class1F8Mem ss c) := by
  intro rule e h
  revert h
  cases rule <;>
    simp [instrOf, class1Row, Instr.wellFormed, Instr.header, Instr.slots, Slots.header, Header.slots]

theorem class1F8Imm8 (c : Slots) : Statement (.class1F8Imm8 c) := by
  intro rule e h
  revert h
  cases rule <;>
    simp [instrOf, class1Row, Instr.wellFormed, Instr.header, Instr.slots, Slots.header, Header.slots]

theorem class1F8Imm16 (c : Slots) : Statement (.class1F8Imm16 c) := by
  intro rule e h
  revert h
  cases rule <;>
    simp [instrOf, class1Row, Instr.wellFormed, Instr.header, Instr.slots, Slots.header, Header.slots]

theorem class1F8Imm32 (c : Slots) : Statement (.class1F8Imm32 c) := by
  intro rule e h
  revert h
  cases rule <;>
    simp [instrOf, class1Row, Instr.wellFormed, Instr.header, Instr.slots, Slots.header, Header.slots]

theorem class1F8Imm64 (c : Slots) : Statement (.class1F8Imm64 c) := by
  intro rule e h
  revert h
  cases rule <;>
    simp [instrOf, class1Row, Instr.wellFormed, Instr.header, Instr.slots, Slots.header, Header.slots]

theorem class1F16Regidx (c : Slots) (ext64 : Word) : Statement (.class1F16Regidx c ext64) := by
  intro rule e h
  revert h
  cases rule <;>
    simp [instrOf, class1Row, Instr.wellFormed, Instr.header, Instr.slots, Instr.ext64, Slots.header, Header.slots]

theorem class2F16Memext (ss : BitVec 2) (c : Slots) (ext64 : Word) : Statement (.class2F16Memext ss c ext64) := by
  intro rule e h
  revert h
  cases rule <;>
    simp [instrOf, class2Row, Instr.wellFormed, Instr.header, Instr.slots, Instr.ext64, Slots.header, Header.slots]

theorem class2F16Imm64 (c : Slots) (ext64 : Word) : Statement (.class2F16Imm64 c ext64) := by
  intro rule e h
  revert h
  cases rule <;>
    simp [instrOf, class2Row, Instr.wellFormed, Instr.header, Instr.slots, Instr.ext64, Slots.header, Header.slots]

theorem class2F8Regreg (ss : BitVec 2) (c : Slots) : Statement (.class2F8Regreg ss c) := by
  intro rule e h
  revert h
  cases rule
  · simp [instrOf, class2Row, Instr.header, Instr.slots, Slots.header, Header.slots]
  · simp [instrOf, class2Row, Instr.wellFormed, Instr.header, Instr.slots, Slots.header, Header.slots]
    exact fun h hi hs => h.elim (· hi) (· hs)

theorem class2F8Mem (ss : BitVec 2) (c : Slots) : Statement (.class2F8Mem ss c) := by
  intro rule e h
  revert h
  cases rule <;>
    simp [instrOf, class2Row, Instr.wellFormed, Instr.header, Instr.slots, Slots.header, Header.slots]

theorem class2F8Imm8 (c : Slots) : Statement (.class2F8Imm8 c) := by
  intro rule e h
  revert h
  cases rule <;>
    simp [instrOf, class2Row, Instr.wellFormed, Instr.header, Instr.slots, Slots.header, Header.slots]

theorem class2F8Imm16 (c : Slots) : Statement (.class2F8Imm16 c) := by
  intro rule e h
  revert h
  cases rule <;>
    simp [instrOf, class2Row, Instr.wellFormed, Instr.header, Instr.slots, Slots.header, Header.slots]

theorem class2F8Imm32 (c : Slots) : Statement (.class2F8Imm32 c) := by
  intro rule e h
  revert h
  cases rule <;>
    simp [instrOf, class2Row, Instr.wellFormed, Instr.header, Instr.slots, Slots.header, Header.slots]

theorem class2F8Imm64 (c : Slots) : Statement (.class2F8Imm64 c) := by
  intro rule e h
  revert h
  cases rule <;>
    simp [instrOf, class2Row, Instr.wellFormed, Instr.header, Instr.slots, Slots.header, Header.slots]

theorem class2F16Regidx (c : Slots) (ext64 : Word) : Statement (.class2F16Regidx c ext64) := by
  intro rule e h
  revert h
  cases rule <;>
    simp [instrOf, class2Row, Instr.wellFormed, Instr.header, Instr.slots, Instr.ext64, Slots.header, Header.slots]

theorem class3F8 (ss : BitVec 2) (di : BitVec 2) (c : Slots) : Statement (.class3F8 ss di c) := by
  intro rule e _
  simp [instrOf, Instr.header, Instr.slots, Slots.header, Header.slots]

theorem class4F8 (ss : BitVec 2) (di : BitVec 2) (c : Slots) : Statement (.class4F8 ss di c) := by
  intro rule e _
  simp [instrOf, Instr.header, Instr.slots, Slots.header, Header.slots]

theorem class5F8 (ss : BitVec 2) (di : BitVec 2) (c : Slots) : Statement (.class5F8 ss di c) := by
  intro rule e _
  simp [instrOf, Instr.header, Instr.slots, Slots.header, Header.slots]

theorem class6F8 (ss : BitVec 2) (di : BitVec 2) (c : Slots) : Statement (.class6F8 ss di c) := by
  intro rule e _
  simp [instrOf, Instr.header, Instr.slots, Slots.header, Header.slots]

theorem class7F8 (ss : BitVec 2) (di : BitVec 2) (c : Slots) : Statement (.class7F8 ss di c) := by
  intro rule e _
  simp [instrOf, Instr.header, Instr.slots, Slots.header, Header.slots]

theorem unknownClass (cls : BitVec 4) (ss : BitVec 2) (di : BitVec 2) (c : Slots) : Statement (.unknownClass cls ss di c) := by
  intro rule e h
  have h8 : 8#4 ≤ cls := by simpa [Instr.wellFormed] using h
  have hne : ∀ k : BitVec 4, k < 8#4 → cls ≠ k := by
    intro k hk e
    subst e
    exact absurd h8 (BitVec.not_le.2 hk)
  simp [instrOf, Instr.header, Instr.slots, Slots.header, Header.slots, hne]

/-- Every instruction has the family's statement. -/
theorem all (i : Instr) : Statement i := by
  cases i with
  | class0F8 ss di c => exact class0F8 ss di c
  | class1F16Memext ss c ext64 => exact class1F16Memext ss c ext64
  | class1F16Imm64 c ext64 => exact class1F16Imm64 c ext64
  | class1F8Regreg ss c => exact class1F8Regreg ss c
  | class1F8Mem ss c => exact class1F8Mem ss c
  | class1F8Imm8 c => exact class1F8Imm8 c
  | class1F8Imm16 c => exact class1F8Imm16 c
  | class1F8Imm32 c => exact class1F8Imm32 c
  | class1F8Imm64 c => exact class1F8Imm64 c
  | class1F16Regidx c ext64 => exact class1F16Regidx c ext64
  | class2F16Memext ss c ext64 => exact class2F16Memext ss c ext64
  | class2F16Imm64 c ext64 => exact class2F16Imm64 c ext64
  | class2F8Regreg ss c => exact class2F8Regreg ss c
  | class2F8Mem ss c => exact class2F8Mem ss c
  | class2F8Imm8 c => exact class2F8Imm8 c
  | class2F8Imm16 c => exact class2F8Imm16 c
  | class2F8Imm32 c => exact class2F8Imm32 c
  | class2F8Imm64 c => exact class2F8Imm64 c
  | class2F16Regidx c ext64 => exact class2F16Regidx c ext64
  | class3F8 ss di c => exact class3F8 ss di c
  | class4F8 ss di c => exact class4F8 ss di c
  | class5F8 ss di c => exact class5F8 ss di c
  | class6F8 ss di c => exact class6F8 ss di c
  | class7F8 ss di c => exact class7F8 ss di c
  | unknownClass cls ss di c => exact unknownClass cls ss di c

end Sys2Proof.Laws.RoundTrip
end

