-- ==== Sys2Proof/Laws/Ports.lean ====
section
/-! SUPPORT. What the output ports show, said once. -/

namespace Sys2Proof.Machine

@[simp] theorem ports_nextAddr (s : State) : s.ports.nextAddr = s.inst.nextAddrPort := rfl
@[simp] theorem ports_errCode (s : State) : s.ports.errCode = errCode s.inst.err := rfl

/-- The port carries the sum wherever 64 bits hold it. -/
theorem portNextAddr_toNat {addr : Addr} {next : NextAddr} (h : next.toNat < addressSpace) :
    (portNextAddr addr next).toNat = next.toNat := by
  rw [portNextAddr, if_pos h, BitVec.toNat_setWidth, Nat.mod_eq_of_lt (by simpa [addressSpace] using h)]

/-- The port of an instance that has its address and its sum. -/
theorem nextAddrPort_eq {d : Instance} {a : Addr} {n : NextAddr} (ha : d.addr = some a) (hn : d.nextAddr = some n) :
    d.nextAddrPort = some (portNextAddr a n) := by
  simp only [Instance.nextAddrPort, ha, hn]

end Sys2Proof.Machine
end

