-- ==== Sys2Proof/Tests/Slice0.lean ====
section
/-! SUPPORT. Tests, whose expected results come from the spec's worked examples and vectors (95_test_vectors.md, the
examples inside the rules) or are cut by hand from the encoding of R62; and, for every statement with hypotheses, a
witness of them. -/

open Sys2Proof Sys2Proof.Machine Sys2Proof.Claims

namespace Sys2Proof.Tests

/-! ### Helpers -/

/-- Bytes from numbers. -/
def bytes (ns : List Nat) : List Byte := ns.map (BitVec.ofNat 8)

/-- An instance with the other framing rule of R154. -/
def ipConfig : Config := { Config.standard with frameRule := .indexPresent }

/-- An instance with the little-endian payload order. -/
def leConfig : Config := { Config.standard with payloadOrder := .le }

/-- The standard instance with a program at `lo`, asked for a cycle at `q`. -/
def program (lo hi : Addr) (ns : List Nat) (q : Addr) (t : Terminal) : State :=
  { State.reset with
    progStart := lo, progEnd := hi, layoutSupplied := true, reqAddr := q, reqTerminal := t,
    machine := { resetMachine with mem := writeSeq [] lo.toNat (bytes ns) } }

/-- The bytes of program P1 (`BE`). -/
def p1Bytes : List Nat :=
  [0x10, 0xF0, 0x00, 0x12, 0, 0, 0, 0] ++
  [0x10, 0xF4, 0x00, 0x02, 0, 0, 0, 0, 0x11, 0x22, 0x33, 0x44, 0x55, 0x66, 0x77, 0x88] ++
  [0x20, 0xA4, 0x00, 0x03, 0xFF, 0xFF, 0xFF, 0xF0] ++ [0x01, 0, 0, 0, 0, 0, 0, 0]

/-- Program P1, asked for a cycle at `q`. -/
def p1 (q : Addr) (t : Terminal) : State := program 0x1000#64 0x1028#64 p1Bytes q t

/-- The bytes of program P3 (`BE`); `mode` is byte 1 of the instruction at 0x3018, `F0` in P3 and `F4` in P4. -/
def p3Bytes (mode : Nat) : List Nat :=
  [0x63, 0x04, 0, 0, 0xFF, 0xFF, 0xFF, 0xF8] ++ [0x90, 0xFC, 0, 0, 0, 0, 0, 0] ++
  [0x71, 0x10, 0x00, 0x20, 0, 0, 0, 0] ++ [0x10, mode, 0x00, 0x12, 0, 0, 0, 0] ++ [0x01, 0, 0, 0, 0, 0, 0, 0]

/-- Program P3, asked for a cycle at `q`. -/
def p3 (q : Addr) (t : Terminal) : State := program 0x3000#64 0x3028#64 (p3Bytes 0xF0) q t

/-- Program P4, asked for a cycle at `q`. -/
def p4 (q : Addr) (t : Terminal) : State := program 0x3000#64 0x3028#64 (p3Bytes 0xF4) q t

/-- What a next state shows. -/
def shows {α : Type} (r : Res State) (f : State → α) : Option α :=
  match r with
  | .next t => some (f t)
  | .fault _ | .refused _ => none

/-- The instruction a byte string decodes to, with nothing left over. -/
def decodesTo (cfg : Config) (ns : List Nat) (i : Instr) : Prop := decode cfg (bytes ns) = .ok (i, [])

/-- Slots that are all zero. -/
def zeroSlots : Slots := ⟨0#4, 0#2, 0#2, 0#1, 0#1, 0#2, 0#4, 0#4, 0#4, 0#32⟩

/-! ### WellFormed: each check refuses an ill-formed term -/

theorem test_wf_imm64_only_under_imm_bit : ¬ WellFormed ipConfig (.class1F16Imm64 zeroSlots 0#64) := by decide
theorem test_wf_f8imm64_only_under_index_present : ¬ WellFormed Config.standard (.class2F8Imm64 zeroSlots) := by decide
theorem test_wf_regidx_only_under_index_present :
    ¬ WellFormed Config.standard (.class1F16Regidx { zeroSlots with ip := 1#1 } 0#64) := by decide
theorem test_wf_regidx_needs_ip : ¬ WellFormed ipConfig (.class2F16Regidx zeroSlots 0#64) := by decide
theorem test_wf_regreg_is_not_the_regidx_header :
    ¬ WellFormed ipConfig (.class1F8Regreg 3#2 { zeroSlots with ip := 1#1 }) := by decide
theorem test_wf_unknown_class_is_above_seven : ¬ WellFormed Config.standard (.unknownClass 7#4 0#2 0#2 zeroSlots) := by
  decide

/-! ### Decoding: one word for every constructor. Slots: `type, ds, mem, bp, ip, scale, index, base, dest, disp32`. -/

/-- 95, 2.6. -/
theorem test_decode_class0F8 : decodesTo Config.standard [0x01, 0, 0, 0, 0, 0, 0, 0]
    (.class0F8 0#2 0#2 { zeroSlots with typ := 1#4 }) := by unfold decodesTo; decide
/-- Header `1F 0F` of 95, 2.4. -/
theorem test_decode_class1F16Memext :
    decodesTo Config.standard [0x1F, 0x0F, 0x80, 0x31, 0, 0, 0, 0x10, 1, 2, 3, 4, 5, 6, 7, 8]
      (.class1F16Memext 0#2 ⟨15#4, 0#2, 3#2, 1#1, 0#1, 0#2, 0#4, 3#4, 1#4, 16#32⟩ 0x0102030405060708#64) := by
  unfold decodesTo; decide
/-- P1, 0x1008. -/
theorem test_decode_class1F16Imm64 :
    decodesTo Config.standard [0x10, 0xF4, 0, 2, 0, 0, 0, 0, 0x11, 0x22, 0x33, 0x44, 0x55, 0x66, 0x77, 0x88]
      (.class1F16Imm64 { zeroSlots with ds := 3#2, dest := 2#4 } 0x1122334455667788#64) := by unfold decodesTo; decide
/-- P1, 0x1000. -/
theorem test_decode_class1F8Regreg : decodesTo Config.standard [0x10, 0xF0, 0, 0x12, 0, 0, 0, 0]
    (.class1F8Regreg 3#2 { zeroSlots with ds := 3#2, base := 1#4, dest := 2#4 }) := by unfold decodesTo; decide
/-- 95, 2.6. -/
theorem test_decode_class1F8Mem : decodesTo Config.standard [0x10, 0xFA, 0xE5, 0x37, 0, 0, 0, 8]
    (.class1F8Mem 3#2 ⟨0#4, 3#2, 2#2, 1#1, 1#1, 2#2, 5#4, 3#4, 7#4, 8#32⟩) := by unfold decodesTo; decide
/-- Header `10 34` of 95, 2.4. -/
theorem test_decode_class1F8Imm8 : decodesTo Config.standard [0x10, 0x34, 0, 0, 0, 0, 0, 0]
    (.class1F8Imm8 { zeroSlots with ds := 3#2 }) := by unfold decodesTo; decide
/-- Header `10 74` of 95, 2.4. -/
theorem test_decode_class1F8Imm16 : decodesTo Config.standard [0x10, 0x74, 0, 0, 0, 0, 0, 0]
    (.class1F8Imm16 { zeroSlots with ds := 3#2 }) := by unfold decodesTo; decide
/-- Header `10 B4` of 95, 2.4. -/
theorem test_decode_class1F8Imm32 : decodesTo Config.standard [0x10, 0xB4, 0, 0, 0, 0, 0, 0]
    (.class1F8Imm32 { zeroSlots with ds := 3#2 }) := by unfold decodesTo; decide
/-- Header `10 F4` of 95, 2.4, `[IP]`. -/
theorem test_decode_class1F8Imm64 : decodesTo ipConfig [0x10, 0xF4, 0, 2, 0, 0, 0, 0]
    (.class1F8Imm64 { zeroSlots with ds := 3#2, dest := 2#4 }) := by unfold decodesTo; decide
/-- Header `10 F0 40` of 95, 2.4, `[IP]`. -/
theorem test_decode_class1F16Regidx :
    decodesTo ipConfig [0x10, 0xF0, 0x40, 0x12, 0, 0, 0, 0, 0, 0, 0, 0, 0, 0, 0, 0xFF]
      (.class1F16Regidx { zeroSlots with ds := 3#2, ip := 1#1, base := 1#4, dest := 2#4 } 0xFF#64) := by
  unfold decodesTo; decide
/-- 95, 2.6. -/
theorem test_decode_class2F16Memext :
    decodesTo Config.standard [0x21, 0xAD, 0x80, 0x34, 0xFF, 0xFF, 0xFF, 0xFC, 0, 0, 0, 0, 0, 0, 0, 0xFF]
      (.class2F16Memext 2#2 ⟨1#4, 2#2, 1#2, 1#1, 0#1, 0#2, 0#4, 3#4, 4#4, 0xFFFFFFFC#32⟩ 0xFF#64) := by
  unfold decodesTo; decide
/-- Header `20 C4` of 95, 2.4; little-endian payload of 2.3. -/
theorem test_decode_class2F16Imm64 :
    decodesTo leConfig [0x20, 0xC4, 0, 0, 0xF0, 0xFF, 0xFF, 0xFF, 1, 2, 3, 4, 5, 6, 7, 8]
      (.class2F16Imm64 { zeroSlots with disp32 := 0xFFFFFFF0#32 } 0x0807060504030201#64) := by unfold decodesTo; decide
/-- Header `20 C0 40` of 95, 2.4. -/
theorem test_decode_class2F8Regreg : decodesTo Config.standard [0x20, 0xC0, 0x40, 0, 0, 0, 0, 0]
    (.class2F8Regreg 3#2 { zeroSlots with ip := 1#1 }) := by unfold decodesTo; decide
/-- By hand from R62. -/
theorem test_decode_class2F8Mem : decodesTo Config.standard [0x2E, 0x9B, 0x7F, 0x0F, 0x7F, 0xFF, 0xFF, 0xFF]
    (.class2F8Mem 2#2 ⟨14#4, 1#2, 3#2, 0#1, 1#1, 3#2, 15#4, 0#4, 15#4, 0x7FFFFFFF#32⟩) := by unfold decodesTo; decide
/-- By hand from R62. -/
theorem test_decode_class2F8Imm8 : decodesTo Config.standard [0x20, 0x04, 0, 0, 0, 0, 0, 1]
    (.class2F8Imm8 { zeroSlots with disp32 := 1#32 }) := by unfold decodesTo; decide
/-- By hand from R62. -/
theorem test_decode_class2F8Imm16 : decodesTo Config.standard [0x20, 0x54, 0, 0, 0, 0, 0, 1]
    (.class2F8Imm16 { zeroSlots with ds := 1#2, disp32 := 1#32 }) := by unfold decodesTo; decide
/-- P1, 0x1018. -/
theorem test_decode_class2F8Imm32 : decodesTo Config.standard [0x20, 0xA4, 0, 3, 0xFF, 0xFF, 0xFF, 0xF0]
    (.class2F8Imm32 { zeroSlots with ds := 2#2, dest := 3#4, disp32 := 0xFFFFFFF0#32 }) := by unfold decodesTo; decide
/-- Header `20 C4` of 95, 2.4, `[IP]`. -/
theorem test_decode_class2F8Imm64 : decodesTo ipConfig [0x20, 0xC4, 0, 0, 0, 0, 0, 0] (.class2F8Imm64 zeroSlots) := by
  unfold decodesTo; decide
/-- Header `20 C0 40` of 95, 2.4, `[IP]`. -/
theorem test_decode_class2F16Regidx :
    decodesTo ipConfig [0x20, 0xC0, 0x40, 0, 0, 0, 0, 0, 0x80, 0, 0, 0, 0, 0, 0, 0]
      (.class2F16Regidx { zeroSlots with ip := 1#1 } 0x8000000000000000#64) := by unfold decodesTo; decide
/-- 95, 2.7. -/
theorem test_decode_class3F8 : decodesTo Config.standard [0x33, 0xFC, 0x75, 0x91, 0, 0, 1, 0]
    (.class3F8 3#2 3#2 ⟨3#4, 3#2, 0#2, 0#1, 1#1, 3#2, 5#4, 9#4, 1#4, 0x100#32⟩) := by unfold decodesTo; decide
/-- By hand from R62. -/
theorem test_decode_class4F8 : decodesTo Config.standard [0x4A, 0xB7, 0x5A, 0xC3, 0x80, 0, 0, 0]
    (.class4F8 2#2 1#2 ⟨10#4, 3#2, 3#2, 0#1, 1#1, 1#2, 10#4, 12#4, 3#4, 0x80000000#32⟩) := by unfold decodesTo; decide
/-- 95, 2.7. -/
theorem test_decode_class5F8 : decodesTo Config.standard [0x50, 0xC8, 0, 0, 0, 0, 0x20, 0]
    (.class5F8 3#2 2#2 { zeroSlots with disp32 := 0x2000#32 }) := by unfold decodesTo; decide
/-- P3, 0x3000. -/
theorem test_decode_class6F8 : decodesTo Config.standard [0x63, 0x04, 0, 0, 0xFF, 0xFF, 0xFF, 0xF8]
    (.class6F8 0#2 1#2 { zeroSlots with typ := 3#4, disp32 := 0xFFFFFFF8#32 }) := by unfold decodesTo; decide
/-- P3, 0x3010. -/
theorem test_decode_class7F8 : decodesTo Config.standard [0x71, 0x10, 0, 0x20, 0, 0, 0, 0]
    (.class7F8 0#2 0#2 { zeroSlots with typ := 1#4, ds := 1#2, base := 2#4 }) := by unfold decodesTo; decide
/-- 95, S1 and 2.6. -/
theorem test_decode_unknownClass : decodesTo Config.standard [0x96, 0x6C, 0x7C, 0xF0, 0x12, 0x34, 0x56, 0x78]
    (.unknownClass 9#4 1#2 3#2 ⟨6#4, 2#2, 0#2, 0#1, 1#1, 3#2, 12#4, 15#4, 0#4, 0x12345678#32⟩) := by
  unfold decodesTo; decide
/-- 95, 2.6. -/
theorem test_decode_all_ones : decodesTo Config.standard [0xFF, 0xFF, 0xFF, 0xFF, 0xFF, 0xFF, 0xFF, 0xFF]
    (.unknownClass 15#4 3#2 3#2 ⟨15#4, 3#2, 3#2, 1#1, 1#1, 3#2, 15#4, 15#4, 15#4, 0xFFFFFFFF#32⟩) := by
  unfold decodesTo; decide

theorem test_decode_short_rejected : decode Config.standard (bytes [0x10, 0xF4, 0, 2, 0, 0, 0, 0]) =
    .error (.tooShort 8 16) := by decide
/-- The example of R113. -/
theorem test_encode_example :
    encodeTuple Config.standard ⟨1#4, 0#4, 3#2, 3#2, 2#2, 2#2, 1#1, 1#1, 2#2, 5#4, 3#4, 7#4⟩ 8#32 none =
      some (bytes [0x10, 0xFA, 0xE5, 0x37, 0, 0, 0, 8]) := by decide
/-- A row of the table with the operand bytes zero (R80). -/
theorem test_decodeTableWord_memext :
    decodeTableWord 16 0x200C = some (.class2F16Memext 0#2 zeroSlots 0#64) := by decide
/-- The second word of `10 F0 00 12` counts on from bit 16 (log 9). -/
theorem test_decodeTableWord_second_word :
    decodeTableWord 64 0x001210F0 =
      some (.class1F8Regreg 3#2 { zeroSlots with ds := 3#2, base := 1#4, dest := 2#4 }) := by decide

/-! ### Codec and framing: 95, 2.1 to 2.4 -/

theorem test_extract_values : extract 0xA5#8 7 4 = .ok 10 ∧ extract 0xB7#8 3 2 = .ok 1 ∧ extract 0x5A#8 6 1 = .ok 45 ∧
    extract 0xFF#8 7 0 = .ok 255 ∧ extract 0x80#8 6 6 = .ok 0 := by decide
theorem test_extract_invalid : extract 0xA5#8 3 4 = .error (.invalidRange 3 4) ∧
    extract 0xA5#8 8 8 = .error (.invalidRange 8 8) ∧ extract 0xA5#8 7 (-1) = .error (.invalidRange 7 (-1)) := by decide
theorem test_accessors : headerOf (bytes [0x96, 0x6C, 0x7C, 0xF0]) =
    ⟨9#4, 6#4, 1#2, 2#2, 3#2, 0#2, 0#1, 1#1, 3#2, 12#4, 15#4, 0#4⟩ := by decide
theorem test_constructors : opcodeByte 7#4 9#4 = 0x79#8 ∧ modeByte 2#2 1#2 3#2 1#2 = 0x9D#8 ∧
    sibByte 0#1 1#1 3#2 15#4 = 0x7F#8 ∧ rmByte 15#4 0#4 = 0xF0#8 := by decide
theorem test_disp32_orders : disp32Of .be (bytes [0, 0, 0, 0, 0x12, 0x34, 0x56, 0x78]) = 0x12345678#32 ∧
    disp32Of .le (bytes [0, 0, 0, 0, 0x12, 0x34, 0x56, 0x78]) = 0x78563412#32 := by decide
theorem test_frameLength_imm_bit :
    frameLength .immBit (bytes [0x00, 0xFC, 0x00]) = .f8 ∧ frameLength .immBit (bytes [0x10, 0xF0, 0x40]) = .f8 ∧
    frameLength .immBit (bytes [0x10, 0xF4, 0x40]) = .f16 ∧ frameLength .immBit (bytes [0x1F, 0x0F, 0x00]) = .f16 ∧
    frameLength .immBit (bytes [0x70, 0xFC, 0x40]) = .f8 := by decide
theorem test_frameLength_index_present :
    frameLength .indexPresent (bytes [0x10, 0xF0, 0x40]) = .f16 ∧
    frameLength .indexPresent (bytes [0x10, 0x30, 0x40]) = .f8 ∧
    frameLength .indexPresent (bytes [0x10, 0xF4, 0x40]) = .f8 ∧
    frameLength .indexPresent (bytes [0x20, 0x0C, 0x00]) = .f16 := by decide

/-! ### The boundary check: 95, 2.5 and P4 -/

theorem test_check_p1 : (p1 0x1000#64 .execute).checkRequest = .next true ∧
    (p1 0x1018#64 .execute).checkRequest = .next true ∧ (p1 0x1028#64 .execute).checkRequest = .next true := ⟨rfl, rfl, rfl⟩
theorem test_check_p1_false : (p1 0x0FF8#64 .execute).checkRequest = .next false ∧
    (p1 0x1010#64 .execute).checkRequest = .next false ∧ (p1 0x1030#64 .execute).checkRequest = .next false := ⟨rfl, rfl, rfl⟩
theorem test_check_p1_index_present :
    check .indexPresent (p1 0#64 .execute).machine.mem 0x1000#64 0x1028#64 0x1010#64 = .next true := rfl
theorem test_check_p4_moved_boundary : (p3 0x3020#64 .execute).checkRequest = .next true ∧
    (p4 0x3020#64 .execute).checkRequest = .next false ∧ (p4 0x3028#64 .execute).checkRequest = .next true := ⟨rfl, rfl, rfl⟩
theorem test_p4_is_p3_after_its_store :
    shows ((p3 0x3018#64 .execute).memWrite 0x3019 [0xF4#8]) (fun t => t.machine.mem) =
      some (p4 0x3018#64 .execute).machine.mem := by decide

/-! ### Operands: 95, 2.7 to 2.10 -/

/-- The bundle of a byte string of its own length. -/
def bundleOf (cfg : Config) (ns : List Nat) : Bundle :=
  resolveOperands cfg (decodeFields cfg.payloadOrder (bytes ns) (frameLength cfg.frameRule (bytes ns)) 0#64)

theorem test_bundle_regreg : bundleOf Config.standard [0x71, 0x10, 0x00, 0x20, 0, 0, 0, 0] =
    ⟨0#2, ⟨0#4, .w16⟩, some ⟨2#4, .w8⟩, none, none, none, 0#2⟩ := by decide
theorem test_bundle_imm_short : bundleOf Config.standard [0x20, 0xA4, 0x00, 0x03, 0xFF, 0xFF, 0xFF, 0xF0] =
    ⟨1#2, ⟨3#4, .w32⟩, none, some 0xFFFFFFFFFFFFFFF0#64, none, none, 0#2⟩ := by decide
theorem test_bundle_imm_long_le :
    (bundleOf leConfig [0x10, 0xF4, 0, 2, 0, 0, 0, 0, 0x11, 0x22, 0x33, 0x44, 0x55, 0x66, 0x77, 0x88]).imm =
      some 0x8877665544332211#64 := by decide
theorem test_bundle_memory : (bundleOf Config.standard [0x10, 0xFA, 0xE5, 0x37, 0, 0, 0, 8]).memOp =
    some ⟨some ⟨3#4, .w64⟩, some ⟨5#4, .w64⟩, 4, some 8#64, .w64⟩ := by decide
theorem test_bundle_memory_no_base : (bundleOf Config.standard [0x33, 0xFC, 0x75, 0x91, 0, 0, 1, 0]) =
    ⟨3#2, ⟨1#4, .w64⟩, none, none, some ⟨none, some ⟨5#4, .w64⟩, 8, some 0x100#64, .w64⟩, none, 0#2⟩ := by decide
theorem test_bundle_extended :
    bundleOf Config.standard [0x21, 0xAD, 0x80, 0x34, 0xFF, 0xFF, 0xFF, 0xFC, 0, 0, 0, 0, 0, 0, 0, 0xFF] =
      ⟨3#2, ⟨4#4, .w32⟩, none, none, some ⟨some ⟨3#4, .w64⟩, none, 1, some 0xFFFFFFFFFFFFFFFC#64, .w32⟩,
        some 0xFF#64, 1#2⟩ := by decide

/-- A register file with `x[3]` and `x[5]` set. -/
def regs35 (a b : Word) : Vector Word 16 := writeReg (writeReg resetMachine.regs 3#4 a) 5#4 b

theorem test_ea_base_index :
    effectiveAddress ⟨some ⟨3#4, .w64⟩, some ⟨5#4, .w64⟩, 4, some 8#64, .w64⟩ (regs35 0x1000#64 0x10#64) =
      .next 0x1048#64 := rfl
theorem test_ea_wraps : effectiveAddress ⟨some ⟨3#4, .w64⟩, none, 1, some 16#64, .w64⟩
      (regs35 0xFFFFFFFFFFFFFFF8#64 0#64) = .next 8#64 ∧
    effectiveAddress ⟨none, some ⟨5#4, .w64⟩, 8, some 0#64, .w64⟩ (regs35 0#64 0x2000000000000001#64) =
      .next 8#64 := ⟨rfl, rfl⟩
theorem test_ea_narrow_refused : effectiveAddress ⟨some ⟨3#4, .w32⟩, none, 1, some 0#64, .w64⟩ (regs35 0#64 0#64) =
    .refused .narrowAddressRegister := rfl
theorem test_relocate : (relocate ⟨none, none, 1, some 0x7FFFFFFFFFFFFFFF#64, .w64⟩ 1#64).displacement =
      some 0x8000000000000000#64 ∧
    (relocate ⟨none, none, 1, some 8#64, .w64⟩ (BitVec.ofInt 64 (-8))).displacement = some 0#64 ∧
    (relocate ⟨none, none, 1, none, .w64⟩ 5#64).displacement = none := by decide
theorem test_hexdisp : hexdisp 0xFFFFFFFFFFFFFFFC#64 = "0xfffffffc".toList ∧
    hexdisp 0x80000000#64 = "0x0000000080000000".toList ∧
    hexdisp 0xFFFFFFFF80000000#64 = "0x80000000".toList ∧
    hexdisp 0xFFFFFFFF7FFFFFFF#64 = "0xffffffff7fffffff".toList := by decide

/-- The name resolver, the immediate printer, the mnemonics and the operand lists of the vector configuration (95). -/
def vecName (id : RegId) (w : Width) : Text := 'r' :: (decimal id.toNat ++ '.' :: decimal w.bits)
/-- See `vecName`. -/
def vecImm (v : Word) (_ : Width) : Text := '#' :: '0' :: 'x' :: hexDigits 16 v.toNat
/-- See `vecName`: `src`, `imm` of width `W(ss)`, `mem_op`, `ext` of width 64 where the bundle has it, `dst`. -/
def vecChoices (O : Bundle) : List OperandChoice :=
  [.src, .imm .imm .ss, .memOp] ++ (if O.ext.isSome then [.imm .ext .full] else []) ++ [.dst]
/-- See `vecName`. -/
def vecList (F : Fields) (O : Bundle) : List Operand := (vecChoices O).filterMap (operandOf F O)
/-- The line of a byte string in the vector configuration. -/
def vecLine (ns : List Nat) : Text :=
  let F := decodeFields .be (bytes ns) (frameLength .immBit (bytes ns)) 0#64
  lineOf (renderWith vecName vecImm) ('c' :: (decimal F.hdr.cls.toNat ++ 't' :: decimal F.hdr.typ.toNat))
    (vecList F (resolveOperands Config.standard F))

theorem test_line_memory : vecLine [0x10, 0xFA, 0xE5, 0x37, 0, 0, 0, 8] =
    "c1t0 0x00000008(r3.64, r5.64, 4), r7.64".toList := by decide
theorem test_line_extended : vecLine [0x21, 0xAD, 0x80, 0x34, 0xFF, 0xFF, 0xFF, 0xFC, 0, 0, 0, 0, 0, 0, 0, 0xFF] =
    "c2t1 0xfffffffc(r3.64), #0x00000000000000ff, r4.32".toList := by decide
theorem test_line_no_base : vecLine [0x33, 0xFC, 0x75, 0x91, 0, 0, 1, 0] =
    "c3t3 0x00000100(, r5.64, 8), r1.64".toList := by decide
theorem test_line_absent_displacement :
    renderMemWith vecName ⟨some ⟨3#4, .w64⟩, none, 1, none, .w64⟩ = "(r3.64)".toList := by decide

/-! ### Steps: 95, part 3 -/

theorem test_step_p1_first : shows (step (p1 0x1000#64 .execute))
    (fun t => (t.inst.phase, t.inst.len, t.inst.nextAddr, t.inst.classSel, t.inst.text)) =
      some (.executed, some .f8, some 0x1008#65, 0x02#8, none) := rfl
/-- R32: the ports of the first two cycles of P1 (95, 3.1), and of a cycle in `ERROR`. -/
theorem test_ports_p1 : shows (step (p1 0x1008#64 .execute))
    (fun t => (t.ports.nextAddr, t.ports.composite, t.ports.extValid, t.ports.errCode)) =
      some (some 0x1018#64, some (bytes [0x10, 0xF4, 0x00, 0x02]), some true, 0#3) := by decide
theorem test_ports_misaligned : shows (step (p3 0x3004#64 .execute)) (fun t => (t.ports.nextAddr, t.ports.errCode)) =
    some (none, 3#3) := by decide
theorem test_step_p1_long : shows (step (p1 0x1008#64 .disassemble))
    (fun t => (t.inst.phase, t.inst.len, t.inst.nextAddr, t.inst.operands.map Bundle.imm)) =
      some (.disassembled, some .f16, some 0x1018#65, some (some 0x1122334455667788#64)) := by decide
theorem test_step_p3_unknown : shows (step (p3 0x3008#64 .execute))
    (fun t => (t.inst.err, errCode t.inst.err, t.inst.classSel, t.inst.nextAddr)) =
      some (some (.unknownOpcodeClass 9#4 0x3008#64), 2#3, 0#8, some 0x3010#65) := by decide
theorem test_step_p3_misaligned : shows (step (p3 0x3004#64 .execute)) (fun t => (t.inst.err, t.inst.raw)) =
    some (some (.misalignedAddress 0x3004#64), none) := by decide
theorem test_step_p4_grown : shows (step (p4 0x3018#64 .execute))
    (fun t => (t.inst.len, t.inst.nextAddr, t.inst.fields.map Fields.ext64)) =
      some (some .f16, some 0x3028#65, some (some 0x0100000000000000#64)) := by decide
theorem test_step_at_prog_end : step (p1 0x1028#64 .execute) = .refused .atProgEnd := rfl
theorem test_step_unbacked_byte_faults :
    step (program 0x1000#64 0x1008#64 [0x10, 0xF0] 0x1000#64 .execute) = .fault (.unbackedByte 0x1002) := rfl
theorem test_step_over_the_top :
    step (program 0xFFFFFFFFFFFFFFF8#64 0xFFFFFFFFFFFFFFFF#64 [0x10, 0xF4, 0, 0, 0, 0, 0, 0]
      0xFFFFFFFFFFFFFFF8#64 .execute) = .refused .addressWrap := rfl
/-- R183: a disassembled instance is executed on the next step when the driver holds `EXECUTE`. -/
theorem test_step_disassembled_then_executed :
    shows (andThen (step (p1 0x1018#64 .disassemble)) fun t => step (t.request 0x1018#64 .execute))
      (fun t => (t.inst.phase, t.inst.raw, t.inst.text)) =
        some (.executed, some (bytes [0x20, 0xA4, 0x00, 0x03, 0xFF, 0xFF, 0xFF, 0xF0]), none) := by decide
theorem test_withFetchWord_long : shows (step (State.reset.withFetchWord 16 0x10C4))
    (fun t => (t.inst.phase, t.inst.len, t.inst.classSel)) = some (.executed, some .f16, 0x02#8) := by decide
theorem test_withFetchWord_unknown : shows (step (State.reset.withFetchWord 16 0x8000))
    (fun t => (t.inst.phase, t.inst.err)) = some (.error, some (.unknownOpcodeClass 8#4 0#64)) := by decide
theorem test_service_invalid_range : service State.reset (.extract 0xA5#8 3 4) = .next (.err (.invalidRange 3 4)) := rfl
theorem test_supplyLayout_order : shows (supplyLayout 8#64 16#64 State.reset) (fun t => t.layoutSupplied) = some true ∧
    shows (supplyLayout 16#64 8#64 State.reset) (fun t => t.layoutSupplied) = none := by decide
/-- R191, R266: the run ends abnormally after the release that follows an error, and normally at `PROG_END`. -/
theorem test_run_ends_abnormally : shows (andThen (step (p3 0x3008#64 .execute)) step) (fun t => (t.inst.phase, t.run)) =
    some (.idle, .endedAbnormally (some (.unknownOpcodeClass 9#4 0x3008#64))) := by decide
theorem test_run_ends_at_prog_end :
    shows (step { p1 0x1020#64 .execute with
        inst := { Instance.idle with phase := .executed },
        machine := { (p1 0x1020#64 .execute).machine with successor := 0x1028#65 } })
      (fun t => (t.inst.phase, t.reqAddr, t.run)) = some (.idle, 0x1028#64, .endedNormally) := by decide
theorem test_startRun : (fun s : State => (s.reqAddr, s.reqTerminal, s.run))
    ({ p1 0x1028#64 .disassemble with run := .endedNormally }).startRun = (0x1000#64, .execute, .running) := by decide
/-- A run started with an instance still held, executed with its successor at `PROG_END` or in `ERROR`, runs the cycle at
`PROG_START`. -/
theorem test_startRun_held_instance :
    (let s := { p1 0x1020#64 .execute with
       inst := { Instance.idle with phase := .executed },
       machine := { (p1 0x1020#64 .execute).machine with successor := 0x1028#65 } }
     shows (step s.startRun) (fun t => (t.inst.phase, t.inst.addr, t.run))) =
      some (.executed, some 0x1000#64, .running) ∧
    (let s := { p1 0x1020#64 .execute with
       inst := { Instance.idle with phase := .error, err := some (.misalignedAddress 4#64) } }
     shows (step s.startRun) (fun t => (t.inst.phase, t.inst.addr, t.inst.err, t.run))) =
      some (.executed, some 0x1000#64, none, .running) := by decide
theorem test_noOverlap : noOverlap [⟨0#64, 8⟩, ⟨8#64, 16⟩] = true ∧ noOverlap [⟨0#64, 16⟩, ⟨8#64, 8⟩] = false := by decide

/-- A layout of an 8-byte and a 16-byte instruction, each with one micro-operation. -/
def twoInstructions : List (AsmInstruction Unit) :=
  [⟨0x1000#64, .class0F8 0#2 0#2 zeroSlots, [], [()]⟩, ⟨0x1008#64, .class1F16Imm64 zeroSlots 1#64, [], [()]⟩]

theorem test_loadProgram : shows (loadProgram 0x1000#64 0x1018#64 twoInstructions State.reset)
    (fun t => (t.progStart, t.progEnd, t.byte 0x1009, t.byte 0x1017)) =
      some (0x1000#64, 0x1018#64, some 0xC4#8, some 1#8) := by decide
/-- A region that the elements do not fill, and one they pass. -/
theorem test_loadProgram_refused :
    loadProgram 0x1000#64 0x1020#64 twoInstructions State.reset = .refused .illFormedLayout ∧
    loadProgram 0x1000#64 0x1010#64 twoInstructions State.reset = .refused .illFormedLayout := ⟨rfl, rfl⟩
theorem test_gapFree : gapFree 0 24 [⟨0#64, 8⟩, ⟨8#64, 16⟩] = true ∧ gapFree 0 24 [⟨0#64, 8⟩, ⟨16#64, 8⟩] = false := by decide

/-! ### Witnesses: readable walks -/

/-- A set of cursors that the walk never leaves: each below `hi` has a readable header, and the next cursor is one too. -/
def Closed (rule : FrameRule) (m : Memory) (hi : Nat) (S : List Nat) : Bool :=
  S.all fun a => decide (hi ≤ a) ||
    match memRead m a (headerBytes rule) with
    | .next B => S.contains (a + (frameLength rule B).bytes) &&
        decide (a + (frameLength rule B).bytes ≤ addressSpace)
    | .fault _ | .refused _ => false

/-- What `Closed` says of one cursor below `hi`. -/
theorem closed_next {rule : FrameRule} {m : Memory} {hi a : Nat} {S : List Nat} (hc : Closed rule m hi S = true)
    (ha : a ∈ S) (hlt : a < hi) : ∃ B, memRead m a (headerBytes rule) = .next B ∧
      a + (frameLength rule B).bytes ∈ S ∧ a + (frameLength rule B).bytes ≤ addressSpace := by
  have h := List.all_eq_true.1 hc a ha
  cases hB : memRead m a (headerBytes rule) with
  | next B =>
    simp only [hB, Bool.or_eq_true, Bool.and_eq_true, decide_eq_true_eq, List.contains_iff_mem] at h
    exact ⟨B, rfl, (h.resolve_left (by omega)).1, (h.resolve_left (by omega)).2⟩
  | fault e =>
    simp only [hB, Bool.or_false, decide_eq_true_eq] at h
    omega
  | refused e =>
    simp only [hB, Bool.or_false, decide_eq_true_eq] at h
    omega

/-- Every boundary lies in a closed set that holds the start. -/
theorem boundary_mem {rule : FrameRule} {m : Memory} {lo hi a : Nat} {S : List Nat} (hc : Closed rule m hi S = true)
    (h0 : lo ∈ S) (h : Machine.Boundary rule m lo hi a) : a ∈ S := by
  induction h with
  | start => exact h0
  | next _ inside header _ ih =>
    obtain ⟨B, hB, hmem, _⟩ := closed_next hc ih inside
    rw [header] at hB
    cases hB
    exact hmem

/-- A walk with a closed set is readable. -/
theorem walkReadable_of_closed {rule : FrameRule} {m : Memory} {lo hi : Nat} {S : List Nat}
    (hc : Closed rule m hi S = true) (h0 : lo ∈ S) : Machine.WalkReadable rule m lo hi := by
  intro a ha hlt
  obtain ⟨B, hB, _, hs⟩ := closed_next hc (boundary_mem hc h0 ha) hlt
  exact ⟨B, hB, hs⟩

/-- No boundary lies before the start. -/
theorem boundary_ge {rule : FrameRule} {m : Memory} {lo hi a : Nat} (h : Machine.Boundary rule m lo hi a) :
    lo ≤ a := by
  induction h with
  | start => exact Nat.le_refl _
  | next _ _ _ _ ih => omega

/-- The boundary set of P1 (95, 2.5). -/
def p1Set : List Nat := [0x1000, 0x1008, 0x1018, 0x1020, 0x1028]

theorem p1_closed : Closed .immBit (p1 0#64 .execute).machine.mem 0x1028 p1Set = true := by decide

theorem p1_walkReadable (q : Addr) (t : Terminal) : (p1 q t).WalkReadable :=
  walkReadable_of_closed (S := p1Set) p1_closed (.head _)

theorem p1_about (q : Addr) (t : Terminal) : AboutToStart (p1 q t) := ⟨rfl, rfl, rfl⟩

theorem p3_about (q : Addr) (t : Terminal) : AboutToStart (p3 q t) := ⟨rfl, rfl, rfl⟩

/-! ### Witnesses: a state and operands that meet the hypotheses of each statement that has some -/

theorem witness_ExtractSlicesOrRaisesInvalidRange :
    (∃ start stop : Int, 0 ≤ stop ∧ stop ≤ start ∧ start ≤ 7 ∧ start = 7 ∧ stop = 0) ∧
    (∃ start stop : Int, 0 ≤ stop ∧ stop ≤ start ∧ start ≤ 7 ∧ start = stop ∧ stop = 7) ∧
    ((0 : Int) < 1 ∧ (-1 : Int) < 0 ∧ (8 : Int) > 7) :=
  ⟨⟨7, 0, by decide⟩, ⟨7, 7, by decide⟩, by decide⟩

theorem witness_WholeInstructionRoundTrip :
    (∃ B, encodeTuple Config.standard (zeroSlots.header 1#4 0#2 3#2) 1#32 (some 2#64) = some B) ∧
    (∃ B, encodeTuple ipConfig (zeroSlots.header 1#4 3#2 1#2) 1#32 none = some B) ∧
    (∃ B : List Byte, B.length = (frameLength .immBit B).bytes) :=
  ⟨⟨_, rfl⟩, ⟨_, rfl⟩, ⟨bytes [0x10, 0xFA, 0xE5, 0x37, 0, 0, 0, 8], rfl⟩⟩

theorem witness_EncoderPortNeedsTheRightLength :
    frameLength State.reset.config.frameRule (zeroSlots.header 2#4 0#2 3#2).bytes = formatOf (some 0#64) ∧
    frameLength State.reset.config.frameRule (zeroSlots.header 3#4 0#2 3#2).bytes ≠ formatOf (some 0#64) := by decide

theorem witness_FrameLengthReadsHeaderBytesOnly :
    (∀ k, k < headerBytes .immBit → byteAt (bytes [0x10, 0xF4, 1]) k = byteAt (bytes [0x10, 0xF4, 2]) k) ∧
    (∀ k, k < headerBytes .indexPresent → byteAt (bytes [0x10, 0xF0, 0x40, 1]) k = byteAt (bytes [0x10, 0xF0, 0x40]) k) := by
  decide

theorem witness_FrameLengthIsTheRowsLength : ∃ r, r ∈ opcodeTable ∧
    r.isRowOf (headerWord (bytes [0x10, 0xF4])) = true ∧ r.label = "CLASS1.F16.IMM64" :=
  ⟨⟨"CLASS1.F16.IMM64", 0x10C4#16, 0xF0CC#16, .f16⟩, by decide, by decide, rfl⟩

theorem witness_DecodedInstructionCarriesItsRowsLabel :
    ∃ i rest, decode Config.standard (bytes [0x71, 0x10, 0x00, 0x20, 0, 0, 0, 0]) = .ok (i, rest) := ⟨_, _, rfl⟩

theorem witness_DecodeOfEncodeIsTheInstruction : WellFormed Config.standard (.class1F16Imm64 zeroSlots 1#64) ∧
    WellFormed ipConfig (.class1F8Imm64 zeroSlots) ∧
    WellFormed ipConfig (.class2F16Regidx { zeroSlots with ip := 1#1 } 1#64) ∧
    WellFormed ipConfig (.class2F8Regreg 3#2 zeroSlots) ∧
    WellFormed Config.standard (.unknownClass 8#4 0#2 0#2 zeroSlots) := by decide

theorem witness_EncodeOfDecodeIsTheBytes : ∃ i rest, decode ipConfig
    (bytes [0x10, 0xF0, 0x40, 0x12, 0, 0, 0, 0, 0, 0, 0, 0, 0, 0, 0, 0xFF, 0x77]) = .ok (i, rest) ∧ rest = [0x77#8] :=
  ⟨_, _, rfl, rfl⟩

theorem witness_CheckIsBoundaryMembership :
    Machine.WalkReadable .immBit (p1 0#64 .execute).machine.mem 0x1000 0x1028 ∧
    Machine.WalkReadable .immBit [] 0x1000 0x1000 :=
  ⟨walkReadable_of_closed (S := p1Set) p1_closed (by decide), fun a h hlt => absurd hlt (Nat.not_lt.2 (boundary_ge h))⟩

theorem witness_CheckOfTheFirstInstruction :
    Machine.WalkReadable .immBit (p1 0#64 .execute).machine.mem (0x1008#64).toNat (0x1028#64).toNat ∧
    memRead (p1 0#64 .execute).machine.mem (0x1008#64).toNat (headerBytes .immBit) = .next [0x10#8, 0xF4#8] ∧
    (0x1008#64).toNat + (frameLength .immBit [0x10#8, 0xF4#8]).bytes ≤ (0x1028#64).toNat :=
  ⟨walkReadable_of_closed (S := p1Set) p1_closed (by decide), rfl, by decide⟩

theorem witness_StoreOutsideHeadersKeepsCheck :
    ∀ a, Machine.Boundary .immBit (p1 0#64 .execute).machine.mem 0x1000 0x1028 a → a < 0x1028 →
      0x1002 < a ∨ a + headerBytes .immBit ≤ 0x1002 := by
  intro a h _
  have key : ∀ x ∈ p1Set, 0x1002 < x ∨ x + headerBytes .immBit ≤ 0x1002 := by decide
  exact key a (boundary_mem (S := p1Set) p1_closed (by decide) h)

theorem witness_BoundariesAreEightByteSteps :
    Machine.Boundary .immBit (p1 0#64 .execute).machine.mem 0x1000 0x1028 0x1008 :=
  .next (B := [0x10#8, 0xF0#8]) .start (by decide) rfl (by decide)

/-- Each way over the top: the end of a 16-byte instruction, and a header of three bytes (`INDEX_PRESENT`). -/
theorem witness_WalkPastTheTopIsRefused :
    (let s := program 0xFFFFFFFFFFFFFFF8#64 0xFFFFFFFFFFFFFFFF#64 [0x10, 0xF4] 0xFFFFFFFFFFFFFFFF#64 .execute
     s.Boundary 0xFFFFFFFFFFFFFFF8 ∧ 0xFFFFFFFFFFFFFFF8 < s.reqAddr.toNat ∧ 0xFFFFFFFFFFFFFFF8 < s.progEnd.toNat ∧
     (∃ B, memRead s.machine.mem 0xFFFFFFFFFFFFFFF8 (headerBytes s.config.frameRule) = .next B ∧
       0xFFFFFFFFFFFFFFF8 + (frameLength s.config.frameRule B).bytes > addressSpace) ∧ AboutToStart s) ∧
    (let s := { program 0xFFFFFFFFFFFFFFFE#64 0xFFFFFFFFFFFFFFFF#64 [0x10, 0xF4] 0xFFFFFFFFFFFFFFFF#64 .execute with
       config := ipConfig }
     s.Boundary 0xFFFFFFFFFFFFFFFE ∧ 0xFFFFFFFFFFFFFFFE < s.reqAddr.toNat ∧ 0xFFFFFFFFFFFFFFFE < s.progEnd.toNat ∧
     0xFFFFFFFFFFFFFFFE + headerBytes s.config.frameRule > addressSpace ∧ AboutToStart s) :=
  ⟨⟨.start, by decide, by decide, ⟨_, rfl, by decide⟩, ⟨rfl, rfl, rfl⟩⟩,
   .start, by decide, by decide, by decide, ⟨rfl, rfl, rfl⟩⟩

theorem witness_MemWriteReadsBack : Memory.wf [(0x10, 1#8)] = true ∧
    (∃ m, memWrite [(0x10, 1#8)] 0xFFFFFFFFFFFFFFFF [2#8] = .next m) := ⟨by decide, _, rfl⟩

theorem witness_StoreSeenByNextFetch :
    WholeInstr (p1 0x1000#64 .execute).config 0x1000#64 (bytes [0x63, 0x04, 0, 0, 0, 0, 0, 1]) ∧
    ∃ t, (p1 0x1000#64 .execute).memWrite 0x1000 (bytes [0x63, 0x04, 0, 0, 0, 0, 0, 1]) = .next t :=
  ⟨⟨by decide, by decide⟩, _, rfl⟩

theorem witness_StepRunsTheDecodedInstruction :
    AboutToStart (p1 0x1000#64 .execute) ∧ (p1 0x1000#64 .execute).checkRequest = .next true ∧
    (p1 0x1000#64 .execute).reqAddr < (p1 0x1000#64 .execute).progEnd ∧
    memRead (p1 0x1000#64 .execute).machine.mem 0x1000 8 = .next (bytes [0x10, 0xF0, 0, 0x12, 0, 0, 0, 0]) ∧
    decodesTo Config.standard [0x10, 0xF0, 0, 0x12, 0, 0, 0, 0]
      (.class1F8Regreg 3#2 { zeroSlots with ds := 3#2, base := 1#4, dest := 2#4 }) :=
  ⟨p1_about _ _, rfl, by decide, rfl, test_decode_class1F8Regreg⟩

theorem witness_MisalignedRequestRaisesBeforeFetch :
    AboutToStart (p1 0x1010#64 .execute) ∧ (p1 0x1010#64 .execute).checkRequest = .next false := ⟨p1_about _ _, rfl⟩

theorem witness_RequestsAtAndBeyondProgEnd :
    (AboutToStart (p1 0x1028#64 .execute) ∧ (p1 0x1028#64 .execute).WalkReadable ∧
      (p1 0x1028#64 .execute).reqAddr = (p1 0x1028#64 .execute).progEnd ∧
      (p1 0x1028#64 .execute).checkRequest = .next true) ∧
    (AboutToStart (p1 0x1029#64 .execute) ∧ (p1 0x1029#64 .execute).WalkReadable ∧
      (p1 0x1029#64 .execute).progEnd < (p1 0x1029#64 .execute).reqAddr) :=
  ⟨⟨p1_about _ _, p1_walkReadable _ _, rfl, rfl⟩, p1_about _ _, p1_walkReadable _ _, by decide⟩

theorem witness_NoCycleBeforeTheLayout : State.reset.inst.phase = .idle ∧ State.reset.run = .running ∧
    State.reset.layoutSupplied = false := ⟨rfl, rfl, rfl⟩

/-- The rows of 8 and of 16 bytes at the last address that leaves room, and one beyond it. -/
theorem witness_NextAddrIsTheExactSum : RoomFor (p1 0xFFFFFFFFFFFFFFF0#64 .execute) 16 ∧
    RoomFor (p1 0xFFFFFFFFFFFFFFF8#64 .execute) (Instr.format (.class0F8 0#2 0#2 zeroSlots)).bytes ∧
    (p1 0xFFFFFFFFFFFFFFF8#64 .execute).reqAddr.toNat + (Instr.format (.class0F8 0#2 0#2 zeroSlots)).bytes =
      addressSpace ∧
    (p1 0xFFFFFFFFFFFFFFF7#64 .execute).reqAddr.toNat + (Instr.format (.class0F8 0#2 0#2 zeroSlots)).bytes <
      addressSpace ∧
    ¬ RoomFor (p1 0xFFFFFFFFFFFFFFF8#64 .execute) (Instr.format (.class1F16Memext 0#2 zeroSlots 0#64)).bytes := by decide

theorem witness_CycleEndsWhereItsBytesAreThere :
    AboutToStart (p1 0x1008#64 .execute) ∧ (p1 0x1008#64 .execute).checkRequest = .next true ∧
    (p1 0x1008#64 .execute).reqAddr < (p1 0x1008#64 .execute).progEnd ∧
    ∃ B, fetchInstr (p1 0x1008#64 .execute) = .next B := ⟨p1_about _ _, rfl, by decide, _, rfl⟩

/-- Hypothesis of the completion statements of the 8-byte rows. -/
theorem witness_ShortRowsComplete : RoomFor (p1 0xFFFFFFFFFFFFFFF8#64 .execute) 8 ∧
    RoomFor (p1 0#64 .disassemble) 8 := by decide

/-- Hypothesis of the completion statements of the 16-byte rows. -/
theorem witness_LongRowsComplete : RoomFor (p1 0xFFFFFFFFFFFFFFF0#64 .execute) 16 ∧
    RoomFor (p1 0#64 .disassemble) 16 := by decide

theorem witness_UnknownClassRaisesAtDispatch : (8#4 ≤ 8#4 ∧ RoomFor (p3 0x3008#64 .execute) 8) ∧
    (8#4 ≤ 15#4 ∧ RoomFor (p3 0xFFFFFFFFFFFFFFF8#64 .disassemble) 8) := by decide

theorem witness_UnknownClassRaisedExactlyFor8To15 :
    (AboutToStart (p3 0x3008#64 .execute) ∧ (p3 0x3008#64 .execute).checkRequest = .next true ∧
      (p3 0x3008#64 .execute).reqAddr < (p3 0x3008#64 .execute).progEnd ∧
      ∃ B t, fetchInstr (p3 0x3008#64 .execute) = .next B ∧ step (p3 0x3008#64 .execute) = .next t ∧ 8#4 ≤ clsOf B) ∧
    (AboutToStart (p3 0x3010#64 .execute) ∧ (p3 0x3010#64 .execute).checkRequest = .next true ∧
      (p3 0x3010#64 .execute).reqAddr < (p3 0x3010#64 .execute).progEnd ∧
      ∃ B t, fetchInstr (p3 0x3010#64 .execute) = .next B ∧ step (p3 0x3010#64 .execute) = .next t ∧ clsOf B = 7#4) :=
  ⟨⟨p3_about _ _, rfl, by decide, _, _, rfl, rfl, by decide⟩, p3_about _ _, rfl, by decide, _, _, rfl, rfl, by decide⟩

/-- Hypotheses of the statements about `exec i s = next t`: a class with a handler under each terminal, and one without. -/
theorem witness_ExecAnswersNext :
    (∃ t, exec (.class7F8 0#2 0#2 zeroSlots) (p1 0x1000#64 .execute) = .next t) ∧
    (∃ t, exec (.class0F8 0#2 0#2 zeroSlots) (p1 0x1000#64 .disassemble) = .next t) ∧
    (WellFormed Config.standard (.unknownClass 8#4 0#2 0#2 zeroSlots) ∧
      ∃ t, exec (.unknownClass 8#4 0#2 0#2 zeroSlots) (p1 0x1000#64 .execute) = .next t) :=
  ⟨⟨_, rfl⟩, ⟨_, rfl⟩, by decide, _, rfl⟩

theorem witness_BundleMembersByForm : (zeroSlots.header 1#4 0#2 0#2).di = 0#2 ∧ (zeroSlots.header 1#4 3#2 1#2).di = 1#2 ∧
    (zeroSlots.header 5#4 0#2 2#2).di = 2#2 ∧ (zeroSlots.header 3#4 0#2 3#2).di = 3#2 := by decide

theorem witness_DisplacementKeepsTheSignedValue :
    ∃ m, (bundleOf Config.standard [0x50, 0xC8, 0, 0, 0, 0, 0, 0]).memOp = some m := ⟨_, rfl⟩

theorem witness_EffectiveAddressIsTheModularSum :
    (∀ r : RegisterOperand, some (⟨3#4, .w64⟩ : RegisterOperand) = some r → r.size = .w64) ∧
    (∀ r : RegisterOperand, (none : Option RegisterOperand) = some r → r.size = .w64) ∧
    (∃ r : RegisterOperand, some (⟨3#4, .w32⟩ : RegisterOperand) = some r ∧ r.size ≠ .w64) := by
  refine ⟨fun r h => ?_, fun r h => ?_, ⟨_, rfl, by decide⟩⟩
  · cases h; rfl
  · cases h

theorem witness_RelocationLaws : (⟨none, none, 1, none, .w64⟩ : MemoryOperand).displacement = none ∧
    (⟨none, none, 1, some 8#64, .w64⟩ : MemoryOperand).displacement = some 8#64 := ⟨rfl, rfl⟩

theorem witness_HexDisplacementIsFaithful : hexdisp 8#64 = hexdisp (7#64 + 1#64) := rfl

theorem witness_ExecutionAfterDisassembly : ∃ t, step (p1 0x1000#64 .disassemble) = .next t ∧
    (t.request 0x1000#64 .execute).inst.phase = .disassembled ∧ (t.request 0x1000#64 .execute).reqTerminal = .execute ∧
    t.inst.fields.isSome = true ∧ t.inst.operands.isSome = true ∧ t.inst.nextAddr = some 0x1008#65 :=
  ⟨_, rfl, rfl, rfl, rfl, rfl, rfl⟩

/-- P1 in a given phase, with a successor named. -/
def p1At (phase : Phase) (t : Terminal) (successor : NextAddr) : State :=
  { p1 0x1000#64 t with
    inst := { Instance.idle with phase := phase },
    machine := { (p1 0x1000#64 t).machine with successor := successor } }

/-- One state for each clause; the successors lie at the last address, at `PROG_END` and at `2^64`. -/
theorem witness_DriverReleasesTheInstance :
    ((p1At .executed .execute 0xFFFFFFFFFFFFFFFF#65).inst.phase = .executed ∧
      (p1At .executed .execute 0xFFFFFFFFFFFFFFFF#65).machine.successor.toNat < addressSpace ∧
      (p1At .executed .execute 0xFFFFFFFFFFFFFFFF#65).machine.successor ≠ (0x1028#64).setWidth 65) ∧
    ((p1At .executed .execute 0x1028#65).inst.phase = .executed ∧
      (p1At .executed .execute 0x1028#65).machine.successor =
        (p1At .executed .execute 0x1028#65).progEnd.setWidth 65) ∧
    ((p1At .executed .execute 0x10000000000000000#65).inst.phase = .executed ∧
      addressSpace ≤ (p1At .executed .execute 0x10000000000000000#65).machine.successor.toNat) ∧
    (p1At .error .execute 0#65).inst.phase = .error ∧
    ((p1At .disassembled .disassemble 0#65).inst.phase = .disassembled ∧
      (p1At .disassembled .disassemble 0#65).reqTerminal = .disassemble) ∧
    ((p1 0x1000#64 .execute).inst.phase = .idle ∧ (p1 0x1000#64 .execute).run = .running) ∧
    (let s := { p1 0x1000#64 .execute with run := .endedNormally }
     s.inst.phase = .idle ∧ s.run ≠ .running) := by decide

theorem witness_TransferIntoAnInstructionIsMisaligned :
    (p1At .executed .execute 0x1010#65).inst.phase = .executed ∧ (p1At .executed .execute 0x1010#65).run = .running ∧
    (p1At .executed .execute 0x1010#65).machine.successor = (0x1010#64).setWidth 65 ∧
    0x1010#64 ≠ (p1At .executed .execute 0x1010#65).progEnd ∧
    (p1At .executed .execute 0x1010#65).layoutSupplied = true ∧
    (p1At .executed .execute 0x1010#65).WalkReadable ∧ ¬ (p1At .executed .execute 0x1010#65).Boundary 0x1010 :=
  ⟨rfl, rfl, rfl, by decide, rfl, walkReadable_of_closed (S := p1Set) p1_closed (by decide),
   fun h => absurd (boundary_mem (S := p1Set) p1_closed (by decide) h) (by decide)⟩

/-- Hypotheses of the two statements about a cycle that ends in `ERROR`, for each of its two errors. -/
theorem witness_ErrorLeavesTheMachineAlone :
    ((p3 0x3004#64 .execute).inst.phase = .idle ∧ ∃ t, step (p3 0x3004#64 .execute) = .next t ∧ t.inst.phase = .error) ∧
    ((p3 0x3008#64 .disassemble).inst.phase = .idle ∧
      ∃ t, step (p3 0x3008#64 .disassemble) = .next t ∧ t.inst.phase = .error) :=
  ⟨⟨rfl, _, rfl, rfl⟩, rfl, _, rfl, rfl⟩

/-- Hypotheses of the invariant statements, `ErrorCodesOfTheBlock` and `StepKeepsTheInvariant`. -/
theorem witness_StepKeepsTheInvariant : (p1 0x1000#64 .execute).Inv ∧ ∃ t, step (p1 0x1000#64 .execute) = .next t :=
  ⟨⟨by decide, .idle, fun _ => by decide, fun h => absurd rfl h⟩, _, rfl⟩

theorem witness_WholeCycleIsItsTransitions : (p1 0x1000#64 .execute).inst.phase = .idle := rfl

theorem witness_ResetEqualsReleasedBlock : ∃ t, release (p1At .error .execute 0#65) = .next t := ⟨_, rfl⟩

/-- Two states that differ in a register and in a byte outside the program. -/
theorem witness_OutputsDependOnTheProgramOnly :
    let s := p1 0x1000#64 .execute
    let s' : State := { s with machine := ⟨writeReg s.machine.regs 3#4 7#64, writeByte s.machine.mem 0x2000 1#8, 0#65⟩ }
    AboutToStart s ∧ s'.inst.phase = .idle ∧ SamePorts s s' ∧
    (∀ a, s.progStart.toNat ≤ a → a < s.progEnd.toNat + 16 → s'.byte a = s.byte a) ∧ ∃ t, step s = .next t := by
  refine ⟨p1_about _ _, rfl, ⟨rfl, rfl, rfl, rfl, rfl, rfl, rfl⟩, fun a _ h => ?_, _, rfl⟩
  have hlt : a < 0x1038 := h
  show readByte (writeByte _ 0x2000 1#8) a = readByte _ a
  rw [readByte_writeByte, if_neg (by omega)]

theorem witness_LoadedProgramIsTheRegion :
    ∃ t, loadProgram 0x1000#64 0x1018#64 twoInstructions State.reset = .next t := ⟨_, rfl⟩

end Sys2Proof.Tests
end

section
/-! SUPPORT. The codec undoes itself: the fields of a byte string encode to that byte string (R110 to R113), and the row
of a header keeps the header (R73). -/

namespace Sys2Proof

/-! ### The four composite bytes -/

/-- A slice inside a byte is the `w` bits from bit `stop` up (R100, R103). -/
theorem fieldOf_eq_extractLsb' (w stop : Nat) (b : Byte) (hw : 0 < w) (hs : stop + w ≤ 8) :
    fieldOf w b (stop + w - 1 : Int) stop = b.extractLsb' stop w := by
  have hok : rangeOk (stop + w - 1 : Int) stop = true := by
    simp only [rangeOk, Bool.and_eq_true, decide_eq_true_eq]
    omega
  have hlen : (stop + w - 1 - stop + 1 : Int).toNat = w := by omega
  apply BitVec.eq_of_toNat_eq
  simp [fieldOf, extract, hok, hlen]

/-- The form of `opcode` and of `rm` (R105, R108): a byte is its two nibbles. -/
theorem byte_of_nibbles (b : Byte) :
    ((fieldOf 4 b 7 4).setWidth 8 <<< 4) ||| (fieldOf 4 b 3 0).setWidth 8 = b := by
  have high : fieldOf 4 b 7 4 = b.extractLsb' 4 4 := fieldOf_eq_extractLsb' 4 4 b (by omega) (by omega)
  have low : fieldOf 4 b 3 0 = b.extractLsb' 0 4 := fieldOf_eq_extractLsb' 4 0 b (by omega) (by omega)
  rw [high, low]
  ext k hk
  interval_cases k <;> simp

/-- `mode` of the four fields of a byte is the byte (R106). -/
theorem modeByte_fieldOf (b : Byte) :
    modeByte (fieldOf 2 b 7 6) (fieldOf 2 b 5 4) (fieldOf 2 b 3 2) (fieldOf 2 b 1 0) = b := by
  have hss : fieldOf 2 b 7 6 = b.extractLsb' 6 2 := fieldOf_eq_extractLsb' 2 6 b (by omega) (by omega)
  have hds : fieldOf 2 b 5 4 = b.extractLsb' 4 2 := fieldOf_eq_extractLsb' 2 4 b (by omega) (by omega)
  have hdi : fieldOf 2 b 3 2 = b.extractLsb' 2 2 := fieldOf_eq_extractLsb' 2 2 b (by omega) (by omega)
  have hmem : fieldOf 2 b 1 0 = b.extractLsb' 0 2 := fieldOf_eq_extractLsb' 2 0 b (by omega) (by omega)
  rw [modeByte, hss, hds, hdi, hmem]
  ext k hk
  interval_cases k <;> simp

/-- `sib` of the four fields of a byte is the byte (R107). -/
theorem sibByte_fieldOf (b : Byte) :
    sibByte (fieldOf 1 b 7 7) (fieldOf 1 b 6 6) (fieldOf 2 b 5 4) (fieldOf 4 b 3 0) = b := by
  have hbp : fieldOf 1 b 7 7 = b.extractLsb' 7 1 := fieldOf_eq_extractLsb' 1 7 b (by omega) (by omega)
  have hip : fieldOf 1 b 6 6 = b.extractLsb' 6 1 := fieldOf_eq_extractLsb' 1 6 b (by omega) (by omega)
  have hscale : fieldOf 2 b 5 4 = b.extractLsb' 4 2 := fieldOf_eq_extractLsb' 2 4 b (by omega) (by omega)
  have hindex : fieldOf 4 b 3 0 = b.extractLsb' 0 4 := fieldOf_eq_extractLsb' 4 0 b (by omega) (by omega)
  rw [sibByte, hbp, hip, hscale, hindex]
  ext k hk
  interval_cases k <;> simp

/-- The header of a byte string encodes to its first four bytes (R110). -/
@[simp] theorem bytes_headerOf (B : List Byte) :
    (headerOf B).bytes = [byteAt B 0, byteAt B 1, byteAt B 2, byteAt B 3] := by
  have hopcode : (headerOf B).opcode = byteAt B 0 := byte_of_nibbles _
  have hmode : (headerOf B).mode = byteAt B 1 := modeByte_fieldOf _
  have hsib : (headerOf B).sib = byteAt B 2 := sibByte_fieldOf _
  have hrm : (headerOf B).rm = byteAt B 3 := byte_of_nibbles _
  rw [Header.bytes, hopcode, hmode, hsib, hrm]

/-! ### Payload -/

@[simp] theorem length_leBytes (n v : Nat) : (leBytes n v).length = n := by
  induction n generalizing v with
  | zero => rfl
  | succ n ih => simp [leBytes, ih]

@[simp] theorem length_bytesOf (order : PayloadOrder) (n v : Nat) : (bytesOf order n v).length = n := by
  cases order <;> simp [bytesOf]

theorem leInt_lt (bs : List Byte) : leInt bs < 256 ^ bs.length := by
  induction bs with
  | nil => simp [leInt]
  | cons b bs ih =>
    have hb : b.toNat < 256 := b.isLt
    simp only [leInt, List.length_cons, pow_succ]
    omega

theorem leBytes_leInt (bs : List Byte) : leBytes bs.length (leInt bs) = bs := by
  induction bs with
  | nil => rfl
  | cons b bs ih =>
    have hb : b.toNat < 256 := b.isLt
    have hlow : BitVec.ofNat 8 (b.toNat + 256 * leInt bs) = b := by
      apply BitVec.eq_of_toNat_eq
      rw [BitVec.toNat_ofNat]
      omega
    have hhigh : (b.toNat + 256 * leInt bs) / 256 = leInt bs := by omega
    simp only [List.length_cons, leInt, leBytes, hlow, hhigh, ih]

theorem intOf_lt (order : PayloadOrder) (bs : List Byte) : intOf order bs < 256 ^ bs.length := by
  cases order with
  | le => exact leInt_lt bs
  | be => simpa [intOf] using leInt_lt bs.reverse

/-- The bytes of the integer that a byte string denotes are the byte string (R10). -/
theorem bytesOf_intOf (order : PayloadOrder) (bs : List Byte) : bytesOf order bs.length (intOf order bs) = bs := by
  cases order with
  | le => exact leBytes_leInt bs
  | be =>
    have h := leBytes_leInt bs.reverse
    rw [List.length_reverse] at h
    simp only [bytesOf, intOf, h, List.reverse_reverse]

/-- A field as wide as its byte string keeps every byte of it. -/
theorem bytesOf_ofNat_intOf (order : PayloadOrder) (bs : List Byte) :
    bytesOf order bs.length (BitVec.ofNat (8 * bs.length) (intOf order bs)).toNat = bs := by
  have hlt : intOf order bs < 2 ^ (8 * bs.length) := by
    rw [Nat.pow_mul]
    exact intOf_lt order bs
  rw [BitVec.toNat_ofNat, Nat.mod_eq_of_lt hlt, bytesOf_intOf]

/-- The displacement encodes to bytes 4 to 7 (R111). -/
theorem bytesOf_disp32Of (order : PayloadOrder) (B : List Byte) :
    bytesOf order 4 (disp32Of order B).toNat = [byteAt B 4, byteAt B 5, byteAt B 6, byteAt B 7] :=
  bytesOf_ofNat_intOf order [_, _, _, _]

/-- The 8-byte field encodes to bytes 8 to 15 (R112). -/
theorem bytesOf_ext64Of (order : PayloadOrder) (B : List Byte) :
    bytesOf order 8 (ext64Of order B).toNat = [byteAt B 8, byteAt B 9, byteAt B 10, byteAt B 11,
      byteAt B 12, byteAt B 13, byteAt B 14, byteAt B 15] :=
  bytesOf_ofNat_intOf order [_, _, _, _, _, _, _, _]

/-! ### Whole instructions -/

/-- An encoding is as long as its format says (R60, R61). -/
theorem length_encodeBytes (order : PayloadOrder) (h : Header) (d : BitVec 32) (ext : Option Word) :
    (encodeBytes order h d ext).length = (formatOf ext).bytes := by
  cases ext <;> simp [encodeBytes, Header.bytes, formatOf, Format.bytes]

theorem map_byteAt_range (B : List Byte) : (List.range B.length).map (byteAt B) = B := by
  apply List.ext_getElem
  · rw [List.length_map, List.length_range]
  · intro k _ hk
    simp [byteAt, hk]

/-- The fields decoded from as many bytes as the length says encode to those bytes (R113). -/
theorem encodeBytes_decodeFields {order : PayloadOrder} {B : List Byte} {len : Format} (a : Addr)
    (h : B.length = len.bytes) :
    encodeBytes order (headerOf B) (disp32Of order B) (decodeFields order B len a).ext64 = B := by
  have hB := map_byteAt_range B
  rw [h] at hB
  cases len with
  | f8 =>
    simp only [encodeBytes, decodeFields, bytes_headerOf, bytesOf_disp32Of]
    exact hB
  | f16 =>
    simp only [encodeBytes, decodeFields, bytes_headerOf, bytesOf_disp32Of, bytesOf_ext64Of]
    exact hB

/-! ### Framing reads header bytes only -/

theorem byteAt_append {B : List Byte} {k : Nat} (C : List Byte) (hk : k < B.length) :
    byteAt (B ++ C) k = byteAt B k := by
  rw [byteAt, byteAt, List.getD_append _ _ _ _ hk]

/-- The length depends on the header bytes of the framing rule only (R152). -/
theorem frameLength_congr {rule : FrameRule} {B C : List Byte}
    (h : ∀ k < headerBytes rule, byteAt B k = byteAt C k) : frameLength rule B = frameLength rule C := by
  unfold frameLength clsOf diOf ssOf ipOf
  cases rule with
  | immBit => rw [h 0 (by decide), h 1 (by decide)]
  | indexPresent => rw [h 0 (by decide), h 1 (by decide), h 2 (by decide)]

/-- Bytes behind the header bytes leave the length as it is (R152). -/
theorem frameLength_append {rule : FrameRule} {B : List Byte} (C : List Byte) (h : headerBytes rule ≤ B.length) :
    frameLength rule (B ++ C) = frameLength rule B :=
  frameLength_congr fun _ hk => byteAt_append C (by omega)

theorem headerBytes_le (rule : FrameRule) : headerBytes rule ≤ 3 := by cases rule <;> decide

/-! ### The row of a header -/

/-- What the row `i` of the header of `B` keeps: the header, the displacement `d`, the value `e` of bytes 8 to 15 exactly
where the length is 16, and the check of the framing rule. -/
structure IsRowOf (rule : FrameRule) (B : List Byte) (d : BitVec 32) (e : Word) (i : Instr) : Prop where
  header     : i.header = headerOf B
  disp32     : i.slots.disp32 = d
  ext64      : i.ext64 = if frameLength rule B = .f16 then some e else none
  wellFormed : i.wellFormed rule = true

/-- The forms of a class 1 or class 2 header: `MEMEXT`, `MEM`, the four immediates, `REGIDX`, and `REGREG` in two parts
(R73, R154). -/
theorem longClass_forms (di ss : BitVec 2) (ip : BitVec 1) :
    di = 3#2 ∨ di = 2#2 ∨ (di = 1#2 ∧ ss = 3#2) ∨ (di = 1#2 ∧ ss = 2#2) ∨ (di = 1#2 ∧ ss = 1#2) ∨
    (di = 1#2 ∧ ss = 0#2) ∨ (di = 0#2 ∧ ss = 3#2 ∧ ip = 1#1) ∨ (di = 0#2 ∧ ss ≠ 3#2) ∨ (di = 0#2 ∧ ip ≠ 1#1) := by
  revert di ss ip
  decide

/-- The rows of the two classes with both formats, form by form. -/
theorem isRowOf_instrOf_long {rule : FrameRule} {B : List Byte} (d : BitVec 32) (e : Word)
    (hc : clsOf B = 1#4 ∨ clsOf B = 2#4) : IsRowOf rule B d e (instrOf rule (headerOf B) d e) := by
  rcases longClass_forms (diOf B) (ssOf B) (ipOf B) with
      hdi | hdi | ⟨hdi, hss⟩ | ⟨hdi, hss⟩ | ⟨hdi, hss⟩ | ⟨hdi, hss⟩ | ⟨hdi, hss, hip⟩ | ⟨hdi, hss⟩ | ⟨hdi, hip⟩ <;>
    rcases hc with hc | hc <;> cases rule <;> constructor <;>
      simp [instrOf, class1Row, class2Row, headerOf, Header.slots, Slots.header, Instr.header, Instr.slots,
        Instr.ext64, Instr.wellFormed, frameLength, *]

/-- The decoder finds the row of its bytes' header (R73, R77). -/
theorem isRowOf_instrOf {rule : FrameRule} {B : List Byte} (d : BitVec 32) (e : Word) :
    IsRowOf rule B d e (instrOf rule (headerOf B) d e) := by
  by_cases hc : clsOf B = 1#4 ∨ clsOf B = 2#4
  · exact isRowOf_instrOf_long d e hc
  obtain ⟨h1, h2⟩ := not_or.1 hc
  have hlen : frameLength rule B = .f8 := by simp [frameLength, h1, h2]
  have unknown : clsOf B ≠ 0#4 → clsOf B ≠ 3#4 → clsOf B ≠ 4#4 → clsOf B ≠ 5#4 → clsOf B ≠ 6#4 → clsOf B ≠ 7#4 →
      8#4 ≤ clsOf B := by bv_omega
  unfold instrOf headerOf
  simp only [h1, h2, if_false]
  split_ifs with h0 h3 h4 h5 h6 h7 <;> constructor <;>
    simp [headerOf, Header.slots, Slots.header, Instr.header, Instr.slots, Instr.ext64, Instr.wellFormed, *]

theorem wellFormed_of_decode {cfg : Config} {B r : List Byte} {i : Instr} (h : decode cfg B = .ok (i, r)) :
    WellFormed cfg i := by
  obtain ⟨-, rfl, -⟩ := decode_eq_ok h
  exact (isRowOf_instrOf _ _).wellFormed

end Sys2Proof
end

section
/-! SUPPORT. What the parts of a decode cycle leave: the bytes a fetch answers, the instruction they decode to, room below
`2^64`, and what a step is in each phase. -/

namespace Sys2Proof.Machine

/-! ### Fetched bytes and their instruction -/

/-- The rest of an instruction whose first 8 bytes are there makes it whole, with the length of its header (R44). -/
theorem restOfInstr_whole {cfg : Config} {m : Memory} {a : Addr} {B B' : List Byte} (eight : B.length = 8)
    (room : passesTop a (frameLength cfg.frameRule B) = false)
    (h : restOfInstr m a B (frameLength cfg.frameRule B) = .next B') :
    frameLength cfg.frameRule B' = frameLength cfg.frameRule B ∧ WholeInstr cfg a B' := by
  unfold WholeInstr
  cases hlen : frameLength cfg.frameRule B with
  | f8 =>
    rw [hlen] at h room
    cases h
    exact ⟨hlen, by rw [hlen, eight]; rfl, by rw [hlen, room]⟩
  | f16 =>
    rw [hlen] at h room
    obtain ⟨C, hC, h⟩ := andThen_eq_next h
    cases h
    obtain ⟨-, -, eight'⟩ := memRead_eq_next hC
    have hheader := headerBytes_le cfg.frameRule
    have hlen' : frameLength cfg.frameRule (B ++ C) = .f16 := by rw [frameLength_append C (by omega), hlen]
    exact ⟨hlen', by rw [hlen', List.length_append, eight, eight']; rfl, by rw [hlen', room]⟩

/-- What is fetched is one whole instruction (R44). -/
theorem fetchInstr_whole {s : State} {B : List Byte} (h : fetchInstr s = .next B) :
    WholeInstr s.config s.reqAddr B := by
  obtain ⟨B₀, hB₀, h⟩ := andThen_eq_next h
  obtain ⟨-, -, eight⟩ := memRead_eq_next hB₀
  split at h
  · cases h
  · rename_i room
    exact (restOfInstr_whole eight (by simpa using room) h).2

/-- The fields of a decoded instruction are the fields of its bytes (R163). -/
theorem fieldsAt_of_decode {cfg : Config} {B r : List Byte} {i : Instr} (a : Addr) (h : decode cfg B = .ok (i, r)) :
    fieldsAt a i.header i.slots.disp32 i.ext64 = fieldsOf cfg a B := by
  obtain ⟨-, rfl, -⟩ := decode_eq_ok h
  have row : IsRowOf cfg.frameRule B _ _ _ :=
    isRowOf_instrOf (disp32Of cfg.payloadOrder B) (ext64Of cfg.payloadOrder B)
  rw [row.header, row.disp32, row.ext64]
  unfold fieldsOf decodeFields
  cases frameLength cfg.frameRule B <;> rfl

theorem format_of_decode {cfg : Config} {B r : List Byte} {i : Instr} (h : decode cfg B = .ok (i, r)) :
    i.format = frameLength cfg.frameRule B :=
  congrArg Fields.len (fieldsAt_of_decode 0#64 h)

/-- A decoded instruction encodes to its bytes, where nothing follows them (R113). -/
theorem encode_of_decode {cfg : Config} {B r : List Byte} {i : Instr} (h : decode cfg B = .ok (i, r))
    (hlen : B.length = (frameLength cfg.frameRule B).bytes) : encode cfg i = B := by
  have hF := fieldsAt_of_decode 0#64 h
  have hhdr : i.header = headerOf B := congrArg Fields.hdr hF
  have hdisp : i.slots.disp32 = disp32Of cfg.payloadOrder B := congrArg Fields.disp32 hF
  have hext : i.ext64 = (fieldsOf cfg 0#64 B).ext64 := congrArg Fields.ext64 hF
  rw [encode, hhdr, hdisp, hext]
  exact encodeBytes_decodeFields _ hlen

/-- A meaning starts where the transitions have decoded the fields of the same bytes (R181, log 5). -/
theorem presented_of_decode {s : State} {B r : List Byte} {i : Instr} (h : decode s.config B = .ok (i, r))
    (whole : WholeInstr s.config s.reqAddr B) :
    presented i.header i.slots.disp32 i.ext64 s = { s with inst := fieldsInstance s.config s.reqAddr B } := by
  have hraw : encodeBytes s.config.payloadOrder i.header i.slots.disp32 i.ext64 = B := encode_of_decode h whole.1
  have hlen : formatOf i.ext64 = frameLength s.config.frameRule B := format_of_decode h
  rw [presented, hraw, hlen, fieldsAt_of_decode _ h]
  rfl

/-! ### Classes with a handler -/

theorem classId_lt_eight (c : ClassId) : c.setWidth 4 < 8#4 := by bv_omega

/-- The class number that dispatch takes from the fields (R165). -/
theorem classOf_eq {F : Fields} {c : ClassId} (h : F.hdr.cls = c.setWidth 4) : classOf F = c := by
  rw [classOf, h]
  bv_omega

/-! ### Terminals -/

theorem toTerminal_of_disassemble {c : ClassId} {F : Fields} {O : Bundle} {n : NextAddr} {s : State}
    (h : s.reqTerminal = .disassemble) : toTerminal c F O n s = disassembled c F O s := by
  rw [toTerminal, h]

theorem toTerminal_of_execute {c : ClassId} {F : Fields} {O : Bundle} {n : NextAddr} {s : State}
    (h : s.reqTerminal = .execute) : toTerminal c F O n s = executed c F O n s := by
  rw [toTerminal, h]

/-! ### Room below `2^64` -/

theorem passesTop_eq_false_iff {a : Addr} {len : Format} :
    passesTop a len = false ↔ a.toNat + len.bytes ≤ addressSpace := by
  rw [passesTop, decide_eq_false_iff_not, Nat.not_lt]

/-- 65 bits hold every sum `addr + len` (R24). -/
theorem nextAddrOf_toNat (a : Addr) (len : Format) : (nextAddrOf a len).toNat = a.toNat + len.bytes := by
  have ha := a.isLt
  have hlen := Format.bytes_cases len
  simp only [nextAddrOf, BitVec.toNat_add, BitVec.toNat_setWidth, BitVec.toNat_ofNat]
  omega

@[simp] theorem toTerminal_inst_addr (c : ClassId) (F : Fields) (O : Bundle) (n : NextAddr) (s : State) :
    (toTerminal c F O n s).inst.addr = s.inst.addr := by unfold toTerminal; split <;> rfl
@[simp] theorem toTerminal_inst_nextAddr (c : ClassId) (F : Fields) (O : Bundle) (n : NextAddr) (s : State) :
    (toTerminal c F O n s).inst.nextAddr = s.inst.nextAddr := by unfold toTerminal; split <;> rfl

/-- An instruction that would pass `2^64` is refused (R43). -/
theorem exec_of_noRoom {i : Instr} {s : State} (h : passesTop s.reqAddr i.format = true) :
    exec i s = .refused .addressWrap := by
  rcases exec_eq i s with ⟨c, hexec, -⟩ | ⟨cls, ss, di, sl, rfl, hexec⟩
  · rw [hexec]
    exact if_pos h
  · rw [hexec]
    exact if_pos h

/-- An instruction with room completes, with its address and its sum (R21, R24). -/
theorem exec_of_room {i : Instr} {s : State} (h : passesTop s.reqAddr i.format = false) :
    ∃ t, exec i s = .next t ∧ t.inst.addr = some s.reqAddr ∧
      t.inst.nextAddr = some (nextAddrOf s.reqAddr i.format) := by
  rcases exec_eq i s with ⟨c, hexec, -⟩ | ⟨cls, ss, di, sl, rfl, hexec⟩
  · rw [hexec, classCycle_next h]
    exact ⟨_, rfl, toTerminal_inst_addr .., toTerminal_inst_nextAddr ..⟩
  · rw [hexec, unknownClassCycle_next h]
    exact ⟨_, rfl, rfl, rfl⟩

/-! ### What a step is in each phase -/

theorem step_of_idle {s : State} (h : s.inst.phase = .idle) : step s = whileRunning (decodeCycleWith exec) s := by
  rw [step, stepWith, h]

theorem step_of_running {s : State} (h : s.inst.phase = .idle) (hrun : s.run = .running) :
    step s = decodeCycleWith exec s := by
  rw [step_of_idle h, whileRunning, hrun]

theorem step_of_ended {s : State} (h : s.inst.phase = .idle) (hrun : s.run ≠ .running) : step s = .next s := by
  rw [step_of_idle h]
  rcases whileRunning_cases (decodeCycleWith exec) s with ⟨running, -⟩ | ⟨-, hw⟩
  · exact absurd running hrun
  · exact hw

theorem step_of_inside {s : State} (hidle : s.inst.phase ≠ .idle) (hend : Phase.isEnd s.inst.phase = false) :
    step s = completeCycle 4 s := by
  unfold step stepWith
  split <;> simp_all [Phase.isEnd]

theorem step_of_isEnd {s : State} (h : Phase.isEnd s.inst.phase = true) : step s = advance s := by
  unfold step stepWith
  split <;> simp_all [Phase.isEnd]

/-- The driver's move after a cycle is a release, except where it asks for the execution of a disassembled instruction
(R183, R228, log 6). -/
theorem step_eq_release {s : State} (h : s.inst.phase = .executed ∨ s.inst.phase = .error ∨
    (s.inst.phase = .disassembled ∧ s.reqTerminal = .disassemble)) : step s = release s := by
  obtain hp | hp | ⟨hp, ht⟩ := h <;> rw [step_of_isEnd (by rw [hp]; rfl), advance, hp]
  simp only [ht]

theorem release_of_executed {s : State} (hp : s.inst.phase = .executed) :
    release s = if s.machine.successor.toNat ≥ addressSpace then .refused .addressWrap
      else .next { s with
        inst := Instance.idle, reqAddr := s.machine.successor.setWidth 64,
        run := runAfter s.progEnd s.machine.successor s.run } := by
  rw [release, hp]

/-! ### The last write to a register or to a byte stands -/

theorem applyRegWrites_append (regs : Vector Word 16) (ws us : List (RegId × Word)) :
    applyRegWrites regs (ws ++ us) = applyRegWrites (applyRegWrites regs ws) us := by
  induction ws generalizing regs with
  | nil => rfl
  | cons w ws ih => exact ih _

theorem applyMemWrites_append (m : Memory) (ws us : List (Addr × Byte)) :
    applyMemWrites m (ws ++ us) = applyMemWrites (applyMemWrites m ws) us := by
  induction ws generalizing m with
  | nil => rfl
  | cons w ws ih => exact ih _

theorem readReg_applyRegWrites_concat (regs : Vector Word 16) (ws : List (RegId × Word)) (i j : RegId) (v : Word) :
    readReg (applyRegWrites regs (ws ++ [(i, v)])) j = if j = i then v else readReg (applyRegWrites regs ws) j := by
  rw [applyRegWrites_append]
  exact readReg_writeReg _ i j v

theorem readByte_applyMemWrites_concat (m : Memory) (ws : List (Addr × Byte)) (a : Addr) (b : Byte) (x : Nat) :
    readByte (applyMemWrites m (ws ++ [(a, b)])) x =
      if x = a.toNat then some b else readByte (applyMemWrites m ws) x := by
  rw [applyMemWrites_append]
  exact readByte_writeByte _ a.toNat x b

/-- A register after a handler's writes: the last value written to it, else its old value (R26). -/
theorem readReg_applyRegWrites (regs : Vector Word 16) (ws : List (RegId × Word)) (r : RegId) :
    readReg (applyRegWrites regs ws) r =
      ((ws.reverse.find? (fun w => w.1 = r)).map Prod.snd).getD (readReg regs r) := by
  induction ws using List.reverseRecOn with
  | nil => rfl
  | append_singleton ws w ih =>
    obtain ⟨i, v⟩ := w
    rw [readReg_applyRegWrites_concat, List.reverse_concat, List.find?_cons]
    by_cases h : r = i
    · simp [h]
    · simp [h, Ne.symm h, ih]

/-- A byte after a handler's writes: the last value written to it, else its old value (R42). -/
theorem readByte_applyMemWrites (m : Memory) (ws : List (Addr × Byte)) (x : Nat) :
    readByte (applyMemWrites m ws) x =
      ((ws.reverse.find? (fun w => w.1.toNat = x)).map Prod.snd).or (readByte m x) := by
  induction ws using List.reverseRecOn with
  | nil => rfl
  | append_singleton ws w ih =>
    obtain ⟨a, b⟩ := w
    rw [readByte_applyMemWrites_concat, List.reverse_concat, List.find?_cons]
    by_cases h : x = a.toNat
    · simp [h]
    · simp [h, Ne.symm h, ih]

end Sys2Proof.Machine
end

section
/-! SUPPORT. The invariant of the machine, transition by transition, and through a whole step. -/

namespace Sys2Proof.Machine

section
variable {s t : State} {a : Addr} {B : List Byte}

/-! ### Updates that keep it -/

/-- While the run goes on, any content that a cycle can leave may be put in place. -/
theorem State.Inv.withInst {d : Instance} (h : s.Inv) (hrun : s.run = .running) (hd : InstanceOk s.config d) :
    State.Inv { s with inst := d } :=
  ⟨h.memory, hd, h.layout, fun hn => absurd hrun hn⟩

/-- Outside `IDLE` the run goes on. -/
theorem State.Inv.running (h : s.Inv) (hp : s.inst.phase ≠ .idle) : s.run = .running := by
  by_contra hn
  exact hp (h.run hn)

/-- An executor keeps the memory's form, whatever it writes (log 4). -/
theorem State.Inv.executed {c : ClassId} {F : Fields} {O : Bundle} {n : NextAddr} (h : s.Inv)
    (hrun : s.run = .running) (hd : InstanceOk s.config { s.inst with phase := .executed, text := none }) :
    (executed c F O n s).Inv :=
  ⟨wf_applyMemWrites _ h.memory, hd, h.layout, fun hn => absurd hrun hn⟩

/-- Both terminals of an instruction whose operands are resolved keep the invariant. -/
theorem State.Inv.toTerminal {c : ClassId} {F : Fields} {O : Bundle} {n : NextAddr} (h : s.Inv)
    (hrun : s.run = .running) (whole : WholeInstr s.config a B) (known : clsOf B < 8#4)
    (hd : s.inst = operandsInstance s.config a B) (hF : F = fieldsOf s.config a B) (hc : c = classOf F)
    (hO : O = resolveOperands s.config F) : (toTerminal c F O n s).Inv := by
  subst hO hc hF
  rcases toTerminal_cases (classOf (fieldsOf s.config a B)) (fieldsOf s.config a B)
      (resolveOperands s.config (fieldsOf s.config a B)) n s with ⟨-, e⟩ | ⟨-, e⟩ <;> rw [e]
  · refine h.withInst hrun ?_
    rw [hd]
    exact .disassembled a B whole known
  · refine h.executed hrun ?_
    rw [hd]
    exact .executed a B whole known

/-! ### The transitions of R181 -/

theorem inv_of_release (h : s.Inv) (e : release s = .next t) : t.Inv := by
  obtain ⟨hinst, hmachine, -, hstart, hend, hlayout, -⟩ := release_eq_next e
  refine ⟨hmachine ▸ h.memory, hinst ▸ .idle, ?_, fun _ => by rw [hinst]; rfl⟩
  rw [hlayout, hstart, hend]
  exact h.layout

theorem inv_of_startCycle (h : s.Inv) (hrun : s.run = .running) (e : startCycle s = .next t) : t.Inv := by
  unfold startCycle at e
  split at e
  · cases e
  obtain ⟨ok, -, e⟩ := andThen_eq_next e
  split at e
  · cases e
    exact State.Inv.withInst (s := s) h hrun (.misaligned s.reqAddr)
  split at e
  · cases e
  obtain ⟨B, hB, e⟩ := andThen_eq_next e
  cases e
  obtain ⟨-, -, eight⟩ := memRead_eq_next hB
  exact h.withInst hrun (.rawBytes s.reqAddr B eight)

theorem inv_of_frameTransition (h : s.Inv) (hrun : s.run = .running) (hd : s.inst = Instance.atRawBytes a B)
    (eight : B.length = 8) (e : frameTransition s = .next t) : t.Inv := by
  unfold frameTransition at e
  rw [hd] at e
  dsimp only [Instance.atRawBytes] at e
  split at e
  · cases e
  rename_i room
  obtain ⟨B', hB', e⟩ := andThen_eq_next e
  cases e
  obtain ⟨hlen, whole⟩ := restOfInstr_whole eight (by simpa using room) hB'
  refine h.withInst hrun ?_
  rw [← hlen]
  exact .framed a B' whole

theorem inv_of_decodeTransition (h : s.Inv) (hrun : s.run = .running)
    (hd : s.inst = Instance.atFramed a B (frameLength s.config.frameRule B)) (whole : WholeInstr s.config a B)
    (e : decodeTransition s = .next t) : t.Inv := by
  unfold decodeTransition at e
  rw [hd] at e
  cases e
  exact h.withInst hrun (.fieldsDecoded a B whole)

theorem inv_of_dispatchTransition (h : s.Inv) (hrun : s.run = .running)
    (hd : s.inst = fieldsInstance s.config a B) (whole : WholeInstr s.config a B)
    (e : dispatchTransition s = .next t) : t.Inv := by
  unfold dispatchTransition at e
  rw [hd] at e
  dsimp only [fieldsInstance, Instance.atFieldsDecoded] at e
  split at e <;> rename_i hcls <;> cases e
  · exact h.withInst hrun (.operandsResolved a B whole hcls)
  · unfold raiseError
    rw [hd]
    exact h.withInst hrun (.unknownClass a B whole (BitVec.not_lt.1 hcls))

theorem inv_of_terminalTransition (h : s.Inv) (hrun : s.run = .running)
    (hd : s.inst = operandsInstance s.config a B) (whole : WholeInstr s.config a B) (known : clsOf B < 8#4)
    (e : terminalTransition s = .next t) : t.Inv := by
  unfold terminalTransition at e
  rw [hd] at e
  cases e
  exact h.toTerminal hrun whole known hd rfl rfl rfl

theorem inv_of_executeTransition (h : s.Inv) (hrun : s.run = .running)
    (hd : s.inst = { operandsInstance s.config a B with phase := .disassembled, text := some (textOf s.config a B) })
    (whole : WholeInstr s.config a B) (known : clsOf B < 8#4) (e : executeTransition s = .next t) : t.Inv := by
  unfold executeTransition at e
  rw [hd] at e
  cases e
  refine h.executed hrun ?_
  rw [hd]
  exact .executed a B whole known

/-- Every transition keeps the invariant: the content of each phase is what the next transition needs. -/
theorem inv_of_advance (h : s.Inv) (e : advance s = .next t) : t.Inv := by
  have hinst := h.inst
  generalize hd : s.inst = d at hinst
  have hphase : s.inst.phase = d.phase := by rw [hd]
  unfold advance at e
  rw [hphase] at e
  cases hinst with
  | idle =>
    rcases whileRunning_cases startCycle s with ⟨hrun, hw⟩ | ⟨-, hw⟩
    · exact inv_of_startCycle h hrun (hw ▸ e)
    · cases hw.symm.trans e
      exact h
  | rawBytes a B eight => exact inv_of_frameTransition h (h.running (by rw [hphase]; nofun)) hd eight e
  | framed a B whole => exact inv_of_decodeTransition h (h.running (by rw [hphase]; nofun)) hd whole e
  | fieldsDecoded a B whole => exact inv_of_dispatchTransition h (h.running (by rw [hphase]; nofun)) hd whole e
  | operandsResolved a B whole known =>
    exact inv_of_terminalTransition h (h.running (by rw [hphase]; nofun)) hd whole known e
  | disassembled a B whole known =>
    dsimp only at e
    split at e
    · exact inv_of_executeTransition h (h.running (by rw [hphase]; nofun)) hd whole known e
    · exact inv_of_release h e
  | executed a B whole known => exact inv_of_release h e
  | misaligned a => exact inv_of_release h e
  | unknownClass a B whole unknown => exact inv_of_release h e

theorem inv_of_completeCycle {n : Nat} (h : s.Inv) (e : completeCycle n s = .next t) : t.Inv := by
  induction n generalizing s with
  | zero =>
    cases e
    exact h
  | succ n ih =>
    unfold completeCycle at e
    split at e
    · cases e
      exact h
    · obtain ⟨u, hu, e⟩ := andThen_eq_next e
      exact ih (inv_of_advance h hu) e

/-! ### The whole cycle -/

/-- The meaning of an instruction keeps the invariant where the instruction is the one its bytes decode to: it leaves what
the transitions would leave for those bytes. -/
theorem inv_of_exec {i : Instr} {r : List Byte} (h : s.Inv) (hrun : s.run = .running)
    (whole : WholeInstr s.config s.reqAddr B) (hdec : decode s.config B = .ok (i, r)) (e : exec i s = .next t) :
    t.Inv := by
  have hF := fieldsAt_of_decode s.reqAddr hdec
  have hcls : clsOf B = i.header.cls := congrArg (·.hdr.cls) hF.symm
  have hpresented := presented_of_decode hdec whole
  rcases exec_eq i s with ⟨c, hexec, hc⟩ | ⟨cls, ss, di, sl, rfl, hexec⟩
  · obtain ⟨-, rfl⟩ := classCycle_eq_next (hexec ▸ e)
    have known : clsOf B < 8#4 := by
      rw [hcls, hc]
      exact classId_lt_eight c
    obtain rfl : classOf (fieldsOf s.config s.reqAddr B) = c := classOf_eq (hcls.trans hc)
    rw [hpresented, hF]
    exact State.Inv.toTerminal (h.withInst hrun (.operandsResolved _ B whole known)) hrun whole known rfl rfl rfl rfl
  · obtain ⟨-, rfl⟩ := unknownClassCycle_eq_next (hexec ▸ e)
    obtain rfl : clsOf B = cls := hcls
    rw [show presented _ _ none s = _ from hpresented]
    exact State.Inv.withInst (s := s) h hrun
      (.unknownClass _ B whole (of_decide_eq_true (wellFormed_of_decode hdec)))

theorem inv_of_decodeCycle (h : s.Inv) (hrun : s.run = .running) (e : decodeCycleWith exec s = .next t) : t.Inv := by
  obtain ⟨-, ⟨-, rfl⟩ | ⟨-, -, B, i, r, hB, hdec, e⟩⟩ := decodeCycleWith_eq_next e
  · exact State.Inv.withInst (s := s) h hrun (.misaligned s.reqAddr)
  · exact inv_of_exec h hrun (fetchInstr_whole hB) hdec e

theorem inv_of_step (h : s.Inv) (e : step s = .next t) : t.Inv := by
  by_cases hidle : s.inst.phase = .idle
  · by_cases hrun : s.run = .running
    · exact inv_of_decodeCycle h hrun (step_of_running hidle hrun ▸ e)
    · cases (step_of_ended hidle hrun).symm.trans e
      exact h
  cases hend : Phase.isEnd s.inst.phase with
  | false => exact inv_of_completeCycle h (step_of_inside hidle hend ▸ e)
  | true => exact inv_of_advance h (step_of_isEnd hend ▸ e)

end

end Sys2Proof.Machine
end

section
/-! SUPPORT. What a meaning that answers next has left alone, and the settled obligations of 10_state.md. -/

open Sys2Proof Sys2Proof.Machine

namespace Sys2Proof.Claims

/-! ### The frame of a meaning -/

theorem exec_samePorts {i : Instr} {s t : State} (e : exec i s = .next t) : SamePorts s t := by
  rcases exec_eq i s with ⟨c, hexec, -⟩ | ⟨cls, ss, di, sl, rfl, hexec⟩
  · obtain ⟨-, rfl⟩ := classCycle_eq_next (hexec ▸ e)
    constructor <;> simp
  · obtain ⟨-, rfl⟩ := unknownClassCycle_eq_next (hexec ▸ e)
    constructor <;> rfl

theorem exec_machine_of_disassemble {i : Instr} {s t : State} (e : exec i s = .next t)
    (ht : s.reqTerminal = .disassemble) : t.machine = s.machine := by
  rcases exec_eq i s with ⟨c, hexec, -⟩ | ⟨cls, ss, di, sl, rfl, hexec⟩
  · obtain ⟨-, rfl⟩ := classCycle_eq_next (hexec ▸ e)
    rw [toTerminal_of_disassemble]
    · rfl
    · exact ht
  · obtain ⟨-, rfl⟩ := unknownClassCycle_eq_next (hexec ▸ e)
    rfl

theorem exec_machine_of_unknown {i : Instr} {s t : State} (e : exec i s = .next t)
    (unknown : 8#4 ≤ i.header.cls) : t.machine = s.machine := by
  rcases exec_eq i s with ⟨c, hexec, hc⟩ | ⟨cls, ss, di, sl, rfl, hexec⟩
  · exact absurd unknown (BitVec.not_le.2 (hc ▸ classId_lt_eight c))
  · obtain ⟨-, rfl⟩ := unknownClassCycle_eq_next (hexec ▸ e)
    rfl

/-- Under `EXECUTE` the machine is what the effect of `Exec[class]` makes of it (R182, R204). -/
theorem exec_machine_of_execute {i : Instr} {s t : State} (wf : WellFormed s.config i) (e : exec i s = .next t)
    (ht : s.reqTerminal = .execute) (known : i.header.cls < 8#4) :
    t.machine = applyEffect (effectOf i s) (nextAddrOf s.reqAddr i.format) s.machine := by
  rcases exec_eq i s with ⟨c, hexec, hc⟩ | ⟨cls, ss, di, sl, rfl, hexec⟩
  · obtain ⟨-, rfl⟩ := classCycle_eq_next (hexec ▸ e)
    have hclass : classOf (fieldsFor i s) = c := classOf_eq hc
    rw [effectOf, hclass, toTerminal_of_execute]
    · rfl
    · exact ht
  · exact absurd known (BitVec.not_lt.2 (of_decide_eq_true wf))

/-! ### The obligations -/

/-- Settles O54: every transition keeps the invariant, and a whole decode cycle leaves what its transitions leave. -/
theorem stepKeepsTheInvariant : Obligations.StepKeepsTheInvariant := fun _ _ => inv_of_step

/-- Settles O22, by the law of one write after the rest of the list. -/
theorem registerWritesReadBack : Obligations.RegisterWritesReadBack := readReg_applyRegWrites_concat

/-- Settles O28: the 65-bit sum is exact, and the port is its view. -/
theorem nextAddrIsTheExactSum : Obligations.NextAddrIsTheExactSum := by
  intro i s
  have hsum := nextAddrOf_toNat s.reqAddr i.format
  refine ⟨fun noRoom => exec_of_noRoom ?_, fun room => ?_⟩
  · rw [← Bool.not_eq_false, passesTop_eq_false_iff]
    exact noRoom
  · obtain ⟨t, ht, haddr, hnext⟩ := exec_of_room (passesTop_eq_false_iff.2 room)
    refine ⟨t, _, _, ht, hnext, hsum, nextAddrPort_eq haddr hnext, fun fits => ?_, fun top => ?_⟩
    · rw [portNextAddr_toNat (by rw [hsum]; exact fits), hsum]
    · rw [portNextAddr, if_neg (by omega)]

/-- Settles O39: the machine after `EXECUTE` is the effect applied, whose last write to a place stands. -/
theorem instructionFrame : Obligations.InstructionFrame := by
  intro i s t wf e
  refine ⟨exec_samePorts e, fun h => h.elim (exec_machine_of_disassemble e) (exec_machine_of_unknown e), ?_⟩
  intro ht known
  have hm := exec_machine_of_execute wf e ht known
  refine ⟨fun r => ?_, fun a => ?_, ?_⟩
  · rw [State.reg, hm]
    exact readReg_applyRegWrites _ _ r
  · rw [State.byte, hm, applyEffect_mem, readByte_applyMemWrites]
    cases (effectOf i s).memWrites.reverse.find? (fun w => w.1.toNat = a) <;> rfl
  · rw [hm, applyEffect_successor, successorOf]
    cases (effectOf i s).successor <;> rfl

/-- Settles O7: an encoding is as long as its format, which agrees with the header's length exactly when it is given. -/
theorem encoderPortNeedsTheRightLength : Obligations.EncoderPortNeedsTheRightLength := by
  intro s h d ext
  refine ⟨fun agree => ⟨encodeBytes s.config.payloadOrder h d ext, ?_, ?_⟩, fun disagree => ?_⟩
  · rw [service, encodeTuple, if_pos agree]
  · rw [agree, length_encodeBytes]
  · rw [service, encodeTuple, if_neg disagree]

/-- Settles O27: the cycle's first test is the layout's. -/
theorem noCycleBeforeTheLayout : Obligations.NoCycleBeforeTheLayout := by
  intro s hidle hrun hlayout
  rw [step_of_running hidle hrun, decodeCycleWith, if_pos hlayout]

/-- Settles O48: after a cycle a step is the release, and from `IDLE` the cycle asked for. -/
theorem driverReleasesTheInstance : Obligations.DriverReleasesTheInstance := by
  intro s
  refine ⟨fun hp hlt hne => ?_, fun hp heq => ?_, fun hp hge => ?_, fun hp => ?_, fun hp ht => ?_, step_of_running,
    step_of_ended, rfl, step_of_running rfl rfl⟩
  · rw [step_eq_release (.inl hp), release_of_executed hp, if_neg (Nat.not_le.2 hlt), runAfter, if_neg hne]
  · have hlt : s.machine.successor.toNat < addressSpace := by
      rw [heq, BitVec.toNat_setWidth]
      exact Nat.lt_of_le_of_lt (Nat.mod_le _ _) s.progEnd.isLt
    have hend : s.machine.successor.setWidth 64 = s.progEnd := by
      rw [heq]
      bv_omega
    rw [step_eq_release (.inl hp), release_of_executed hp, if_neg (Nat.not_le.2 hlt), runAfter, if_pos heq, hend]
  · rw [step_eq_release (.inl hp), release_of_executed hp, if_pos hge]
  · rw [step_eq_release (.inr (.inl hp)), release, hp]
  · rw [step_eq_release (.inr (.inr ⟨hp, ht⟩)), release, hp]

/-- Settles O55: at reset no content is held, no layout is supplied and the run goes on. -/
theorem resetHasTheInvariant : Obligations.ResetHasTheInvariant :=
  ⟨wf_reset, .idle, nofun, fun h => absurd rfl h⟩

/-- Settles O56: reset holds no component, and a release leaves the same. -/
theorem resetEqualsReleasedBlock : Obligations.ResetEqualsReleasedBlock :=
  ⟨rfl, rfl, rfl, rfl, rfl, rfl, rfl, rfl, rfl, fun _ _ e => (release_eq_next e).1⟩

end Sys2Proof.Claims
end

section
/-! SUPPORT. Byte sequences in memory: what a read answers after a write, the parts of a read, and the fetch of an
instruction that stands in memory. -/

namespace Sys2Proof.Machine

/-! ### Reads after writes -/

/-- A read answers the same in two memories that agree on its bytes (R41). -/
theorem memRead_congr {m m' : Memory} {a n : Nat} (h : ∀ x, a ≤ x → x < a + n → readByte m x = readByte m' x) :
    memRead m a n = memRead m' a n := by
  have hseq : readSeq m a n = readSeq m' a n := by
    induction n generalizing a with
    | zero => rfl
    | succ n ih =>
      rw [readSeq, readSeq, h a (by omega) (by omega), ih fun x hx hlt => h x (by omega) (by omega)]
  rw [memRead, memRead, hseq]

/-- A sequence that is written stands where it was written, and every other address reads as before (R42). -/
theorem readByte_writeSeq (m : Memory) (a : Nat) (bs : List Byte) (x : Nat) :
    readByte (writeSeq m a bs) x = if a ≤ x ∧ x < a + bs.length then bs[x - a]? else readByte m x := by
  induction bs generalizing m a with
  | nil => rw [if_neg (by simp)]; rfl
  | cons b bs ih =>
    rw [writeSeq, ih, readByte_writeByte, List.length_cons]
    by_cases hx : x = a
    · rw [if_neg (by omega), if_pos hx, if_pos (by omega), hx, Nat.sub_self]
      rfl
    · rw [if_neg hx]
      by_cases hin : a + 1 ≤ x ∧ x < a + 1 + bs.length
      · rw [if_pos hin, if_pos (by omega), show x - a = x - (a + 1) + 1 by omega, List.getElem?_cons_succ]
      · rw [if_neg hin, if_neg (by omega)]

/-- If a write answers a memory, the sequence stays in the address space and is what was written. -/
theorem memWrite_eq_next {m m' : Memory} {a : Nat} {bs : List Byte} (h : memWrite m a bs = .next m') :
    a + bs.length ≤ addressSpace ∧ m' = writeSeq m a bs := by
  unfold memWrite at h
  split at h
  · cases h
  · cases h
    exact ⟨by omega, rfl⟩

/-- A read whose bytes all stand in memory answers them. -/
theorem readSeq_of_bytes {m : Memory} {a : Nat} {bs : List Byte}
    (h : ∀ k < bs.length, readByte m (a + k) = bs[k]?) : readSeq m a bs.length = .next bs := by
  induction bs generalizing a with
  | nil => rfl
  | cons b bs ih =>
    have hhead : readByte m a = some b := h 0 (by simp)
    have htail : readSeq m (a + 1) bs.length = .next bs := by
      refine ih fun k hk => ?_
      rw [Nat.add_right_comm]
      exact h (k + 1) (by simpa using hk)
    rw [List.length_cons, readSeq, hhead]
    simp only [htail, andThen_next]

/-- A sequence that is written reads back whole (R41, R42). -/
theorem memRead_writeSeq {m : Memory} {a : Nat} {bs : List Byte} (room : a + bs.length ≤ addressSpace) :
    memRead (writeSeq m a bs) a bs.length = .next bs := by
  rw [memRead, if_neg (by omega)]
  refine readSeq_of_bytes fun k hk => ?_
  rw [readByte_writeSeq, if_pos (by omega), Nat.add_sub_cancel_left]

/-! ### Parts of a read -/

/-- A read of `n + k` bytes is a read of `n` and a read of the `k` behind them (R44). -/
theorem memRead_split {m : Memory} {a n k : Nat} {B : List Byte} (h : memRead m a (n + k) = .next B) :
    ∃ C D, B = C ++ D ∧ memRead m a n = .next C ∧ memRead m (a + n) k = .next D := by
  obtain ⟨room, hseq, -⟩ := memRead_eq_next h
  rw [readSeq_add] at hseq
  obtain ⟨C, hC, hseq⟩ := andThen_eq_next hseq
  obtain ⟨D, hD, hseq⟩ := andThen_eq_next hseq
  cases hseq
  refine ⟨C, D, rfl, ?_, ?_⟩
  · rw [memRead, if_neg (by omega), hC]
  · rw [memRead, if_neg (by omega), hD]

/-- Where the bytes of an instruction can be read, so can its header, which shows the same length (R152). -/
theorem memRead_header {rule : FrameRule} {m : Memory} {a n : Nat} {B : List Byte} (h : memRead m a n = .next B)
    (hn : headerBytes rule ≤ n) :
    ∃ H, memRead m a (headerBytes rule) = .next H ∧ frameLength rule B = frameLength rule H := by
  rw [← Nat.add_sub_cancel' hn] at h
  obtain ⟨H, D, rfl, hH, -⟩ := memRead_split h
  obtain ⟨-, -, hlen⟩ := memRead_eq_next hH
  exact ⟨H, hH, frameLength_append D (by omega)⟩

/-- A whole instruction that stands at the address asked for is what is fetched, whether in one read or in two (R44). -/
theorem fetchInstr_of_memRead {s : State} {B : List Byte} (whole : WholeInstr s.config s.reqAddr B)
    (h : memRead s.machine.mem s.reqAddr.toNat B.length = .next B) : fetchInstr s = .next B := by
  obtain ⟨hlen, room⟩ := whole
  cases hfmt : frameLength s.config.frameRule B with
  | f8 =>
    rw [hfmt] at hlen room
    rw [hlen, Format.bytes] at h
    rw [fetchInstr, h, andThen_next, hfmt, room]
    rfl
  | f16 =>
    rw [hfmt] at hlen room
    rw [hlen, Format.bytes] at h
    obtain ⟨C, D, rfl, hC, hD⟩ := memRead_split (n := 8) (k := 8) h
    obtain ⟨-, -, eight⟩ := memRead_eq_next hC
    have hheader := headerBytes_le s.config.frameRule
    rw [frameLength_append D (by omega)] at hfmt
    rw [fetchInstr, hC, andThen_next, hfmt, room, restOfInstr, hD]
    rfl

/-! ### The cycle of fetched bytes -/

@[simp] theorem toTerminal_inst_raw (c : ClassId) (F : Fields) (O : Bundle) (n : NextAddr) (s : State) :
    (toTerminal c F O n s).inst.raw = s.inst.raw := by unfold toTerminal; split <;> rfl

theorem toTerminal_isEnd (c : ClassId) (F : Fields) (O : Bundle) (n : NextAddr) (s : State) :
    Phase.isEnd (toTerminal c F O n s).inst.phase = true := by unfold toTerminal; split <;> rfl

/-- The meaning of the instruction that whole bytes decode to completes, in a terminal or in `ERROR`, and shows those
bytes (R77, R181). -/
theorem exec_ends_of_decode {s : State} {B r : List Byte} {i : Instr} (h : decode s.config B = .ok (i, r))
    (whole : WholeInstr s.config s.reqAddr B) :
    ∃ t, exec i s = .next t ∧ Phase.isEnd t.inst.phase = true ∧ t.inst.raw = some B := by
  have room : passesTop s.reqAddr i.format = false := by
    rw [format_of_decode h]
    exact whole.2
  have hraw : (presented i.header i.slots.disp32 i.ext64 s).inst.raw = some B := by
    rw [presented_of_decode h whole]
    rfl
  rcases exec_eq i s with ⟨c, hexec, -⟩ | ⟨cls, ss, di, sl, rfl, hexec⟩
  · rw [hexec, classCycle_next room]
    exact ⟨_, rfl, toTerminal_isEnd .., (toTerminal_inst_raw ..).trans hraw⟩
  · rw [hexec, unknownClassCycle_next room]
    exact ⟨_, rfl, rfl, hraw⟩

/-- A cycle at a boundary inside the program, with the instruction fetched and decoded, is its meaning (R199). -/
theorem decodeCycleWith_of_fetched {meaning : Instr → State → Res State} {s : State} {B r : List Byte} {i : Instr}
    (hlayout : s.layoutSupplied = true) (hcheck : s.checkRequest = .next true) (hlt : s.reqAddr < s.progEnd)
    (hfetch : fetchInstr s = .next B) (hdec : decode s.config B = .ok (i, r)) :
    decodeCycleWith meaning s = meaning i s := by
  rw [decodeCycleWith, if_neg (by simp [hlayout]), hcheck, andThen_next, if_neg (by simp),
    if_neg (BitVec.not_le.2 hlt), hfetch, andThen_next, hdec]

end Sys2Proof.Machine
end

section
/-! SUPPORT. The boundary walk: where its cursors lie, what it reads, and how it reaches a boundary (R156 to R161). -/

namespace Sys2Proof.Machine

theorem eight_le_bytes (f : Format) : 8 ≤ f.bytes := by cases f <;> decide

/-- Every length is 8 or 16, so every cursor is a multiple of 8 after the start (R47). -/
theorem Boundary.eq_add_mul {rule : FrameRule} {m : Memory} {lo hi a : Nat} (h : Boundary rule m lo hi a) :
    ∃ k, a = lo + 8 * k := by
  induction h with
  | start => exact ⟨0, rfl⟩
  | @next a B _ _ _ _ ih =>
    obtain ⟨k, rfl⟩ := ih
    rcases Format.bytes_cases (frameLength rule B) with hlen | hlen
    · exact ⟨k + 1, by omega⟩
    · exact ⟨k + 2, by omega⟩

/-- Two memories that agree on the header of every boundary below `hi` have the same walk (R161). -/
theorem walk_congr {rule : FrameRule} {m m' : Memory} {lo hi : Nat}
    (same : ∀ a, Boundary rule m lo hi a → a < hi →
      memRead m' a (headerBytes rule) = memRead m a (headerBytes rule))
    (q n a : Nat) (h : Boundary rule m lo hi a) : walk rule m' q hi n a = walk rule m q hi n a := by
  induction n generalizing a with
  | zero => rfl
  | succ n ih =>
    rw [walk, walk]
    split_ifs with hfound hpast
    · rfl
    · rfl
    have inside : a < hi := by omega
    rw [same a h inside]
    cases hB : memRead m a (headerBytes rule) with
    | fault e => rfl
    | refused e => rfl
    | next B =>
      simp only [andThen_next]
      split_ifs with htop
      · rfl
      · exact ih _ (h.next inside hB (Nat.not_lt.1 htop))

/-- The walk to `q` passes through every boundary up to `q`, with fuel left to reach past `q`. -/
theorem walk_eq_walk_of_boundary {rule : FrameRule} {m : Memory} {lo hi a q n : Nat} (h : Boundary rule m lo hi a)
    (hq : a ≤ q) (fuel : q - lo < 8 * n) :
    ∃ k, q - a < 8 * k ∧ walk rule m q hi n lo = walk rule m q hi k a := by
  induction h with
  | start => exact ⟨n, fuel, rfl⟩
  | @next a B _ inside header below ih =>
    have hlen := eight_le_bytes (frameLength rule B)
    obtain ⟨k, hk, hwalk⟩ := ih (by omega)
    cases k with
    | zero => omega
    | succ k =>
      refine ⟨k, by omega, ?_⟩
      rw [hwalk, walk, if_neg (by omega), if_neg (by omega), header, andThen_next, if_neg (by omega)]

/-- `check` of an address from a boundary `a` below it goes on at `a`: its header is read, and its length is added. -/
theorem check_of_boundary {rule : FrameRule} {m : Memory} {lo hi q : Addr} {a : Nat}
    (h : Boundary rule m lo.toNat hi.toNat a) (hq : a < q.toNat) (inside : a < hi.toNat) :
    ∃ k, check rule m lo hi q = andThen (memRead m a (headerBytes rule)) fun B =>
      if a + (frameLength rule B).bytes > addressSpace then .refused .addressWrap
      else walk rule m q.toNat hi.toNat k (a + (frameLength rule B).bytes) := by
  obtain ⟨k, hk, hwalk⟩ := walk_eq_walk_of_boundary h (Nat.le_of_lt hq)
    (n := (q.toNat - lo.toNat) / 8 + 2) (by omega)
  cases k with
  | zero => omega
  | succ k => exact ⟨k, by rw [check, hwalk, walk, if_neg (by omega), if_neg (by omega)]⟩

/-- A walk that starts at its end has the start as its one boundary. -/
theorem boundary_of_le {rule : FrameRule} {m : Memory} {lo hi a : Nat} (hle : hi ≤ lo) :
    Boundary rule m lo hi a ↔ a = lo := by
  constructor
  · intro h
    induction h with
    | start => rfl
    | next _ inside _ _ ih => omega
  · rintro rfl
    exact .start

/-- The boundaries of a walk are its start and the boundaries of the walk behind its first instruction. -/
theorem boundary_iff_of_header {rule : FrameRule} {m : Memory} {lo hi a : Nat} {H : List Byte} (hlt : lo < hi)
    (header : memRead m lo (headerBytes rule) = .next H) (room : lo + (frameLength rule H).bytes ≤ addressSpace) :
    Boundary rule m lo hi a ↔ a = lo ∨ Boundary rule m (lo + (frameLength rule H).bytes) hi a := by
  constructor
  · intro h
    induction h with
    | start => exact .inl rfl
    | next _ inside header' below ih =>
      rcases ih with rfl | ih
      · cases header.symm.trans header'
        exact .inr .start
      · exact .inr (ih.next inside header' below)
  · rintro (rfl | h)
    · exact .start
    · induction h with
      | start => exact Boundary.start.next hlt header room
      | next _ inside header' below ih => exact ih.next inside header' below

end Sys2Proof.Machine
end

section
/-! SUPPORT. The header of an encoding is the header encoded (R110), so an encoding's own length is its format's. -/

namespace Sys2Proof

/-- The form of `opcode` and of `rm` (R105, R108): the two nibbles of a byte made of them. -/
theorem nibbles_of_byte (hi lo : BitVec 4) :
    fieldOf 4 ((hi.setWidth 8 <<< 4) ||| lo.setWidth 8) 7 4 = hi ∧
    fieldOf 4 ((hi.setWidth 8 <<< 4) ||| lo.setWidth 8) 3 0 = lo := by
  refine ⟨(fieldOf_eq_extractLsb' 4 4 _ (by omega) (by omega)).trans ?_,
    (fieldOf_eq_extractLsb' 4 0 _ (by omega) (by omega)).trans ?_⟩ <;>
  (ext k hk; interval_cases k <;> simp)

/-- The four fields of `mode` (R106). -/
theorem fields_of_modeByte (ss ds di mem : BitVec 2) :
    fieldOf 2 (modeByte ss ds di mem) 7 6 = ss ∧ fieldOf 2 (modeByte ss ds di mem) 5 4 = ds ∧
    fieldOf 2 (modeByte ss ds di mem) 3 2 = di ∧ fieldOf 2 (modeByte ss ds di mem) 1 0 = mem := by
  unfold modeByte
  refine ⟨(fieldOf_eq_extractLsb' 2 6 _ (by omega) (by omega)).trans ?_,
    (fieldOf_eq_extractLsb' 2 4 _ (by omega) (by omega)).trans ?_,
    (fieldOf_eq_extractLsb' 2 2 _ (by omega) (by omega)).trans ?_,
    (fieldOf_eq_extractLsb' 2 0 _ (by omega) (by omega)).trans ?_⟩ <;>
  (ext k hk; interval_cases k <;> simp)

/-- The four fields of `sib` (R107). -/
theorem fields_of_sibByte (bp ip : BitVec 1) (scale : BitVec 2) (index : RegId) :
    fieldOf 1 (sibByte bp ip scale index) 7 7 = bp ∧ fieldOf 1 (sibByte bp ip scale index) 6 6 = ip ∧
    fieldOf 2 (sibByte bp ip scale index) 5 4 = scale ∧ fieldOf 4 (sibByte bp ip scale index) 3 0 = index := by
  unfold sibByte
  refine ⟨(fieldOf_eq_extractLsb' 1 7 _ (by omega) (by omega)).trans ?_,
    (fieldOf_eq_extractLsb' 1 6 _ (by omega) (by omega)).trans ?_,
    (fieldOf_eq_extractLsb' 2 4 _ (by omega) (by omega)).trans ?_,
    (fieldOf_eq_extractLsb' 4 0 _ (by omega) (by omega)).trans ?_⟩ <;>
  (ext k hk; interval_cases k <;> simp)

/-- The header of an encoded field tuple is the tuple, whatever bytes follow it (R110). -/
theorem headerOf_bytes_append (h : Header) (C : List Byte) : headerOf (h.bytes ++ C) = h := by
  obtain ⟨hcls, htyp⟩ := nibbles_of_byte h.cls h.typ
  obtain ⟨hss, hds, hdi, hmem⟩ := fields_of_modeByte h.ss h.ds h.di h.mem
  obtain ⟨hbp, hip, hscale, hindex⟩ := fields_of_sibByte h.bp h.ip h.scale h.index
  obtain ⟨hbase, hdest⟩ := nibbles_of_byte h.base h.dest
  cases h
  exact (Header.mk.injEq ..).mpr ⟨hcls, htyp, hss, hds, hdi, hmem, hbp, hip, hscale, hindex, hbase, hdest⟩

/-- An encoding begins with its header. -/
theorem headerOf_encode (cfg : Config) (i : Instr) : headerOf (encode cfg i) = i.header := by
  unfold encode encodeBytes
  rw [List.append_assoc]
  exact headerOf_bytes_append _ _

theorem length_encode (cfg : Config) (i : Instr) : (encode cfg i).length = i.format.bytes := length_encodeBytes ..

/-- The length that an encoding's own header says is the instruction's (R150, R154): the instruction is the row that the
decoder finds for that header. -/
theorem frameLength_encode {cfg : Config} {i : Instr} (wf : WellFormed cfg i) :
    frameLength cfg.frameRule (encode cfg i) = i.format := by
  have row : IsRowOf cfg.frameRule (encode cfg i) _ _ _ := isRowOf_instrOf i.slots.disp32 (i.ext64.getD 0#64)
  rw [headerOf_encode, Laws.RoundTrip.all i _ _ wf] at row
  rw [Instr.format, row.ext64]
  cases frameLength cfg.frameRule (encode cfg i) <;> rfl

end Sys2Proof
end

section
/-! SUPPORT. A gap-free layout (R49, R195): where its elements lie, that storing a program keeps what it has stored, and
that the walk over it visits the elements. -/

namespace Sys2Proof.Machine

/-! ### Where the elements lie -/

/-- A gap-free list that is not empty begins at `lo`, and its rest is gap-free behind the first element. -/
theorem gapFree_cons {lo hi : Nat} {e : PlacedElement} {es : List PlacedElement} :
    gapFree lo hi (e :: es) = true ↔ e.address.toNat = lo ∧ gapFree e.stop hi es = true := by
  rw [gapFree, Bool.and_eq_true, decide_eq_true_eq]

/-- Every element of a gap-free list lies in the region. -/
theorem gapFree_within {lo hi : Nat} {es : List PlacedElement} (h : gapFree lo hi es = true) :
    ∀ e ∈ es, lo ≤ e.address.toNat ∧ e.stop ≤ hi := by
  induction es generalizing lo with
  | nil => nofun
  | cons f es ih =>
    obtain ⟨rfl, htail⟩ := gapFree_cons.1 h
    intro e he
    rcases List.mem_cons.1 he with rfl | he
    · exact ⟨Nat.le_refl _, gapFree_le htail⟩
    · obtain ⟨hstart, hstop⟩ := ih htail e he
      have : f.address.toNat ≤ f.stop := Nat.le_add_right ..
      exact ⟨by omega, hstop⟩

/-- A gap-free list has no overlap: every element begins behind the ones before it (R195). -/
theorem noOverlap_of_gapFree {lo hi : Nat} {es : List PlacedElement} (h : gapFree lo hi es = true) :
    noOverlap es = true := by
  rw [noOverlap, decide_eq_true_eq]
  induction es generalizing lo with
  | nil => exact .nil
  | cons e es ih =>
    obtain ⟨-, htail⟩ := gapFree_cons.1 h
    refine .cons (fun f hf => ?_) (ih htail)
    have hbehind := (gapFree_within htail f hf).1
    rw [PlacedElement.overlaps, Bool.and_eq_false_iff, decide_eq_false_iff_not, decide_eq_false_iff_not]
    exact .inr (Nat.not_lt.2 hbehind)

/-- The union of a gap-free list is the region (R49). -/
theorem covered_of_gapFree {lo hi : Nat} {es : List PlacedElement} (h : gapFree lo hi es = true) (a : Nat) :
    covered es a = true ↔ lo ≤ a ∧ a < hi := by
  induction es generalizing lo with
  | nil =>
    rw [gapFree, decide_eq_true_eq] at h
    simp only [covered, List.any_nil, Bool.false_eq_true, false_iff]
    omega
  | cons e es ih =>
    obtain ⟨rfl, htail⟩ := gapFree_cons.1 h
    have hfirst : e.address.toNat ≤ e.stop := Nat.le_add_right ..
    have hrest := gapFree_le htail
    have hcons : covered (e :: es) a = true ↔ (e.address.toNat ≤ a ∧ a < e.stop) ∨ covered es a = true := by
      simp [covered]
    rw [hcons, ih htail]
    omega

/-! ### Storing a program -/

/-- Storing a program laid out from `lo` changes no byte before `lo`. -/
theorem readByte_storeProgram_of_lt {MicroOp : Type} {cfg : Config} {lo hi x : Nat}
    {prog : List (AsmInstruction MicroOp)} {m : Memory} (h : gapFree lo hi (elementsOf prog) = true) (hx : x < lo) :
    readByte (storeProgram cfg prog m) x = readByte m x := by
  induction prog generalizing lo m with
  | nil => rfl
  | cons i is ih =>
    obtain ⟨haddr, htail⟩ := gapFree_cons.1 h
    have haddr : i.address.toNat = lo := haddr
    have hstop : lo ≤ i.element.stop := haddr ▸ Nat.le_add_right ..
    rw [storeProgram, ih htail (by omega), readByte_writeSeq, if_neg (by omega)]

/-- Every encoding of a stored program reads back at its address: what is stored later lies behind it. -/
theorem memRead_storeProgram {MicroOp : Type} {cfg : Config} {lo hi : Nat} {prog : List (AsmInstruction MicroOp)}
    {m : Memory} (h : gapFree lo hi (elementsOf prog) = true) (room : hi ≤ addressSpace) :
    ∀ i ∈ prog, memRead (storeProgram cfg prog m) i.address.toNat i.element.size = .next (encode cfg i.instr) := by
  induction prog generalizing lo m with
  | nil => nofun
  | cons j is ih =>
    obtain ⟨-, htail⟩ := gapFree_cons.1 h
    intro i hi
    rcases List.mem_cons.1 hi with rfl | hi
    · have hlen : (encode cfg i.instr).length = i.element.size := length_encode ..
      have hstop : i.element.stop ≤ addressSpace := (gapFree_le htail).trans room
      refine (memRead_congr fun x _ hx => readByte_storeProgram_of_lt htail hx).trans ?_
      rw [← hlen]
      exact memRead_writeSeq (hlen ▸ hstop)
    · exact ih htail i hi

/-! ### The walk over a layout -/

/-- At every element a header can be read, and it says the element's size (R195). -/
def HeadersFit (rule : FrameRule) (m : Memory) (es : List PlacedElement) : Prop :=
  ∀ e ∈ es, ∃ H, memRead m e.address.toNat (headerBytes rule) = .next H ∧ (frameLength rule H).bytes = e.size

/-- The boundaries of a walk over a gap-free layout are the elements' addresses and the end (R49, R157). -/
theorem boundary_iff_of_gapFree {rule : FrameRule} {m : Memory} {lo hi a : Nat} {es : List PlacedElement}
    (h : gapFree lo hi es = true) (fit : HeadersFit rule m es) (room : hi ≤ addressSpace) :
    Boundary rule m lo hi a ↔ a = hi ∨ ∃ e ∈ es, a = e.address.toNat := by
  induction es generalizing lo with
  | nil =>
    obtain rfl : lo = hi := of_decide_eq_true h
    simp [boundary_of_le (Nat.le_refl lo)]
  | cons e es ih =>
    obtain ⟨rfl, htail⟩ := gapFree_cons.1 h
    obtain ⟨H, header, hsize⟩ := fit e List.mem_cons_self
    have hlen := eight_le_bytes (frameLength rule H)
    have hstop : e.address.toNat + (frameLength rule H).bytes = e.stop := by rw [hsize, PlacedElement.stop]
    have hrest := gapFree_le htail
    rw [boundary_iff_of_header (by omega) header (by omega), hstop,
      ih htail fun f hf => fit f (List.mem_cons_of_mem _ hf), List.exists_mem_cons_iff, or_left_comm]

/-- A gap-free layout has a readable walk (R254). -/
theorem walkReadable_of_gapFree {rule : FrameRule} {m : Memory} {lo hi : Nat} {es : List PlacedElement}
    (h : gapFree lo hi es = true) (fit : HeadersFit rule m es) (room : hi ≤ addressSpace) :
    WalkReadable rule m lo hi := by
  intro a ha inside
  rcases (boundary_iff_of_gapFree h fit room).1 ha with rfl | ⟨e, he, rfl⟩
  · omega
  · obtain ⟨H, header, hsize⟩ := fit e he
    have hstop : e.address.toNat + e.size ≤ hi := (gapFree_within h e he).2
    exact ⟨H, header, by omega⟩

/-- The encodings of well-formed instructions, where they can be read, have headers that fit their elements. -/
theorem headersFit_of_memRead {MicroOp : Type} {cfg : Config} {m : Memory} {prog : List (AsmInstruction MicroOp)}
    (wf : ∀ i ∈ prog, WellFormed cfg i.instr)
    (stands : ∀ i ∈ prog, memRead m i.address.toNat i.element.size = .next (encode cfg i.instr)) :
    HeadersFit cfg.frameRule m (elementsOf prog) := by
  intro e he
  obtain ⟨i, hi, rfl⟩ := List.mem_map.1 he
  have hheader := headerBytes_le cfg.frameRule
  have hsize : 8 ≤ i.element.size := eight_le_bytes i.instr.format
  obtain ⟨H, hH, hlen⟩ := memRead_header (rule := cfg.frameRule) (stands i hi) (by omega)
  exact ⟨H, hH, by rw [← hlen, frameLength_encode (wf i hi)]; rfl⟩

end Sys2Proof.Machine
end

section
/-! SUPPORT. The settled obligations of 20_memory.md. -/

open Sys2Proof Sys2Proof.Machine

namespace Sys2Proof.Claims

/-- Settles O18, by induction on the walk. -/
theorem boundariesAreEightByteSteps : Obligations.BoundariesAreEightByteSteps := fun _ _ _ _ _ => Boundary.eq_add_mul

/-- Settles O19: the walk reads headers only, and the store lies outside each of them. -/
theorem storeOutsideHeadersKeepsCheck : Obligations.StoreOutsideHeadersKeepsCheck := by
  intro rule m lo hi q x b outside
  refine walk_congr (fun a ha inside => memRead_congr fun y hle hlt => ?_) _ _ _ .start
  have hx := outside a ha inside
  rw [readByte_writeByte, if_neg (by omega)]

/-- Settles O20: the walk reaches the boundary, and what it does there is refused. -/
theorem walkPastTheTopIsRefused : Obligations.WalkPastTheTopIsRefused := by
  intro s a ha hq inside past
  have hcheck : s.checkRequest = .refused .addressWrap := by
    obtain ⟨k, hk⟩ := check_of_boundary ha hq inside
    rw [State.checkRequest, hk]
    rcases past with htop | ⟨B, hB, htop⟩
    · rw [memRead, if_pos htop, andThen_refused]
    · rw [hB, andThen_next, if_pos htop]
  refine ⟨hcheck, fun start => ?_⟩
  rw [step_of_running start.idle start.running, decodeCycleWith, if_neg (by simp [start.layout]), hcheck,
    andThen_refused]

/-- Settles O21, by the law of a written sequence. -/
theorem memWriteReadsBack : Obligations.MemWriteReadsBack := by
  intro m m' a bs wf e
  obtain ⟨-, rfl⟩ := memWrite_eq_next e
  exact ⟨wf_memWrite wf e, readByte_writeSeq m a bs⟩

/-- Settles O23: what is stored reads back whole, and a whole instruction that stands there is fetched. -/
theorem storeSeenByNextFetch : Obligations.StoreSeenByNextFetch := by
  intro s s' B whole e
  obtain ⟨m', hm', e⟩ := andThen_eq_next e
  cases e
  obtain ⟨room, rfl⟩ := memWrite_eq_next hm'
  exact fetchInstr_of_memRead whole (memRead_writeSeq room)

/-- Settles O29: the bytes fetched are one whole instruction, so they decode, and its meaning has room. -/
theorem cycleEndsWhereItsBytesAreThere : Obligations.CycleEndsWhereItsBytesAreThere := by
  intro s B start hcheck hlt hfetch
  have whole := fetchInstr_whole hfetch
  have hdec := decode_total (cfg := s.config) (Nat.le_of_eq whole.1.symm)
  rw [step_of_running start.idle start.running, decodeCycleWith_of_fetched start.layout hcheck hlt hfetch hdec]
  exact exec_ends_of_decode hdec whole

/-- Settles O59: the layout is gap-free, its encodings read back, and so the walk visits its elements. -/
theorem loadedProgramIsTheRegion : Obligations.LoadedProgramIsTheRegion := by
  intro MicroOp lo hi prog s t e
  obtain ⟨hok, -, rfl⟩ := loadProgram_eq_next e
  rw [layoutOk, Bool.and_eq_true, List.all_eq_true] at hok
  obtain ⟨hgap, wf⟩ := hok
  have room : hi.toNat ≤ addressSpace := Nat.le_of_lt hi.isLt
  have stands := memRead_storeProgram (cfg := s.config) (m := s.machine.mem) hgap room
  have fit := headersFit_of_memRead wf stands
  refine ⟨rfl, rfl, rfl, noOverlap_of_gapFree hgap, covered_of_gapFree hgap, fun i hi => ⟨?_, ?_, stands i hi⟩,
    walkReadable_of_gapFree hgap fit room, fun a => ?_⟩
  · exact Format.bytes_cases i.instr.format
  · exact congrArg Format.bytes (frameLength_encode (wf i hi)).symm
  · refine (boundary_iff_of_gapFree hgap fit room).trans ?_
    simp [elementsOf, AsmInstruction.element]

end Sys2Proof.Claims
end

section
/-! SUPPORT. Fields and length are read from the instruction's own bytes, so a decoded instruction encodes to them and
leaves the rest (R74, R113). -/

namespace Sys2Proof

/-- The decoded fields are those of the first `len` bytes, whatever follows them (R163). -/
theorem decodeFields_append {order : PayloadOrder} {B : List Byte} {len : Format} (a : Addr) (C : List Byte)
    (h : len.bytes ≤ B.length) : decodeFields order (B ++ C) len a = decodeFields order B len a := by
  have hbyte : ∀ k < len.bytes, byteAt (B ++ C) k = byteAt B k := fun _ hk => byteAt_append C (by omega)
  cases len <;> simp only [Format.bytes] at hbyte <;>
    simp [decodeFields, headerOf, clsOf, typOf, ssOf, dsOf, diOf, memOf, bpOf, ipOf, scaleOf, indexOf, baseOf, destOf,
      disp32Of, ext64Of, hbyte]

end Sys2Proof

namespace Sys2Proof.Machine

/-- An instruction encodes its fields, at whatever address they stand. -/
theorem encode_of_fieldsAt {cfg : Config} {i : Instr} {a : Addr} {F : Fields}
    (h : fieldsAt a i.header i.slots.disp32 i.ext64 = F) :
    encode cfg i = encodeBytes cfg.payloadOrder F.hdr F.disp32 F.ext64 := by
  subst h
  rfl

/-- A decoded instruction encodes to the front of the byte string, and the rest follows it (R114). -/
theorem encode_append_of_decode {cfg : Config} {B r : List Byte} {i : Instr} (h : decode cfg B = .ok (i, r)) :
    encode cfg i ++ r = B := by
  obtain ⟨hlen, -, hr⟩ := decode_eq_ok h
  have hF := fieldsAt_of_decode 0#64 h
  unfold fieldsOf at hF
  generalize frameLength cfg.frameRule B = len at hlen hr hF
  have hfront : (B.take len.bytes).length = len.bytes := List.length_take_of_le hlen
  rw [← List.take_append_drop len.bytes B, decodeFields_append _ _ (Nat.le_of_eq hfront.symm)] at hF
  calc encode cfg i ++ r = B.take len.bytes ++ r :=
        congrArg (· ++ r) ((encode_of_fieldsAt hF).trans (encodeBytes_decodeFields _ hfront))
    _ = B := by rw [hr, List.take_append_drop]

end Sys2Proof.Machine
end

section
/-! SUPPORT. The opcode table (R73, R80): its rows are apart, and every instruction has one, which the masks find from
`class`, `ss` and `di` alone. -/

namespace Sys2Proof

/-! ### The rows are apart -/

/-- Two rows ask for different values of a header bit that both masks keep. -/
def OpcodeRow.Apart (r r' : OpcodeRow) : Prop := r.pattern &&& r'.mask ≠ r'.pattern &&& r.mask

theorem OpcodeRow.isRowOf_iff {r : OpcodeRow} {H : BitVec 16} : r.isRowOf H = true ↔ H &&& r.mask = r.pattern := by
  rw [OpcodeRow.isRowOf, beq_iff_eq]

/-- Rows that are apart share no header. -/
theorem OpcodeRow.Apart.not_isRowOf {r r' : OpcodeRow} {H : BitVec 16} (apart : r.Apart r')
    (h : r.isRowOf H = true) : r'.isRowOf H ≠ true := by
  intro h'
  rw [isRowOf_iff] at h h'
  apply apart
  calc r.pattern &&& r'.mask = H &&& r.mask &&& r'.mask := by rw [h]
    _ = H &&& r'.mask &&& r.mask := by rw [BitVec.and_assoc, BitVec.and_comm r.mask, BitVec.and_assoc]
    _ = r'.pattern &&& r.mask := by rw [h']

theorem opcodeTable_pairwise_apart : opcodeTable.Pairwise OpcodeRow.Apart := by
  unfold OpcodeRow.Apart
  decide

/-- A header has at most one row (R80). -/
theorem eq_of_isRowOf {r r' : OpcodeRow} {H : BitVec 16} (hr : r ∈ opcodeTable) (hr' : r' ∈ opcodeTable)
    (h : r.isRowOf H = true) (h' : r'.isRowOf H = true) : r = r' := by
  have : Std.Symm OpcodeRow.Apart := ⟨fun _ _ => Ne.symm⟩
  by_contra hne
  exact (opcodeTable_pairwise_apart.forall hr hr' hne).not_isRowOf h h'

/-! ### The header word under a mask -/

/-- The header word of `class`, `ss` and `di`, all else zero; with all-ones fields it is a mask. -/
def headerKey (cls : BitVec 4) (ss di : BitVec 2) : BitVec 16 := (cls ++ 0#4) ++ (ss ++ 0#2 ++ di ++ 0#2)

theorem opcodeByte_eq_append (cls typ : BitVec 4) : opcodeByte cls typ = (cls ++ typ : BitVec (4 + 4)) := by
  rw [← BitVec.setWidth_eq (cls ++ typ), BitVec.setWidth_append_eq_shiftLeft_setWidth_or]
  rfl

theorem modeByte_eq_append (ss ds di mem : BitVec 2) :
    modeByte ss ds di mem = (ss ++ ds ++ di ++ mem : BitVec (2 + 2 + 2 + 2)) := by
  rw [← BitVec.setWidth_eq (ss ++ ds ++ di ++ mem),
    BitVec.setWidth_append_append_append_eq_shiftLeft_setWidth_or]
  rfl

theorem headerWord_bytes (h : Header) : headerWord h.bytes = (h.cls ++ h.typ) ++ (h.ss ++ h.ds ++ h.di ++ h.mem) :=
  congrArg₂ (fun x y : Byte => x ++ y) (opcodeByte_eq_append ..) (modeByte_eq_append ..)

/-- A mask of the three fields keeps of a header word what it keeps of each field. -/
theorem headerWord_and_headerKey (h : Header) (cls : BitVec 4) (ss di : BitVec 2) :
    headerWord h.bytes &&& headerKey cls ss di = headerKey (h.cls &&& cls) (h.ss &&& ss) (h.di &&& di) := by
  rw [headerWord_bytes]
  refine BitVec.and_append.trans ?_
  simp only [BitVec.and_append, BitVec.and_zero, headerKey]

/-- A row whose mask asks for bits of the three fields is the row of a header that has them. -/
theorem OpcodeRow.isRowOf_headerWord {r : OpcodeRow} {h : Header} (cls : BitVec 4) (ss di : BitVec 2)
    (hmask : r.mask = headerKey cls ss di)
    (hpattern : headerKey (h.cls &&& cls) (h.ss &&& ss) (h.di &&& di) = r.pattern) :
    r.isRowOf (headerWord h.bytes) = true := by
  rw [isRowOf_iff, hmask, headerWord_and_headerKey, hpattern]

/-! ### The row of an instruction -/

/-- The place in the opcode table of the row of an instruction's header; the shapes of R154 have the row that their
header has under `IMM_BIT` (log 2). -/
def Instr.rowIndex : Instr → Fin 21
  | .class0F8 _ _ _ => 0
  | .class1F16Memext _ _ _ => 1
  | .class1F16Imm64 _ _ | .class1F8Imm64 _ => 2
  | .class1F8Regreg _ _ | .class1F16Regidx _ _ => 3
  | .class1F8Mem _ _ => 4
  | .class1F8Imm8 _ => 5
  | .class1F8Imm16 _ => 6
  | .class1F8Imm32 _ => 7
  | .class2F16Memext _ _ _ => 8
  | .class2F16Imm64 _ _ | .class2F8Imm64 _ => 9
  | .class2F8Regreg _ _ | .class2F16Regidx _ _ => 10
  | .class2F8Mem _ _ => 11
  | .class2F8Imm8 _ => 12
  | .class2F8Imm16 _ => 13
  | .class2F8Imm32 _ => 14
  | .class3F8 _ _ _ => 15
  | .class4F8 _ _ _ => 16
  | .class5F8 _ _ _ => 17
  | .class6F8 _ _ _ => 18
  | .class7F8 _ _ _ => 19
  | .unknownClass _ _ _ _ => 20

/-- The row of an instruction's header (R73). -/
def Instr.row (i : Instr) : OpcodeRow := opcodeTable.get i.rowIndex

theorem Instr.row_mem (i : Instr) : i.row ∈ opcodeTable := List.get_mem ..

theorem Instr.row_label (i : Instr) : i.row.label = i.mnemonic := by cases i <;> rfl

theorem Instr.row_format {i : Instr} (wf : i.wellFormed .immBit = true) : i.row.format = i.format := by
  cases i with
  | class1F8Imm64 | class1F16Regidx | class2F8Imm64 | class2F16Regidx => cases wf
  | _ => rfl

/-- The classes with no handler are those whose top bit is set (R75). -/
theorem and_eight_of_le : ∀ cls : BitVec 4, 8#4 ≤ cls → cls &&& 8#4 = 8#4 := by decide

/-- Every instruction's header matches its row: the row's mask keeps the fields that the row fixes (R73). -/
theorem Instr.row_isRowOf {rule : FrameRule} {i : Instr} (wf : i.wellFormed rule = true) :
    i.row.isRowOf (headerWord i.header.bytes) = true := by
  cases i with
  | class0F8 | class3F8 | class4F8 | class5F8 | class6F8 | class7F8 =>
    refine OpcodeRow.isRowOf_headerWord 15#4 0#2 0#2 rfl ?_
    simp only [Instr.header, Slots.header, BitVec.and_zero]
    rfl
  | class1F16Memext | class1F8Regreg | class1F8Mem | class1F16Regidx
  | class2F16Memext | class2F8Regreg | class2F8Mem | class2F16Regidx =>
    refine OpcodeRow.isRowOf_headerWord 15#4 0#2 3#2 rfl ?_
    simp only [Instr.header, Slots.header, BitVec.and_zero]
    rfl
  | class1F16Imm64 | class1F8Imm64 | class1F8Imm8 | class1F8Imm16 | class1F8Imm32
  | class2F16Imm64 | class2F8Imm64 | class2F8Imm8 | class2F8Imm16 | class2F8Imm32 =>
    refine OpcodeRow.isRowOf_headerWord 15#4 3#2 3#2 rfl ?_
    simp only [Instr.header, Slots.header]
    rfl
  | unknownClass cls =>
    refine OpcodeRow.isRowOf_headerWord 8#4 0#2 0#2 rfl ?_
    simp only [Instr.header, Slots.header, BitVec.and_zero, and_eight_of_le cls (of_decide_eq_true wf)]
    rfl

/-- The row of the decoder's instruction is the row of the header decoded. -/
theorem isRowOf_row_instrOf (rule : FrameRule) (B : List Byte) (d : BitVec 32) (e : Word) :
    (instrOf rule (headerOf B) d e).row.isRowOf (headerWord B) = true := by
  have row : IsRowOf rule B d e _ := isRowOf_instrOf d e
  have h := Instr.row_isRowOf row.wellFormed
  rw [row.header, bytes_headerOf] at h
  exact h

theorem IsRowOf.format {rule : FrameRule} {B : List Byte} {d : BitVec 32} {e : Word} {i : Instr}
    (row : IsRowOf rule B d e i) : i.format = frameLength rule B := by
  rw [Instr.format, row.ext64]
  cases frameLength rule B <;> rfl

/-- Every header word is that of two bytes. -/
theorem exists_headerWord (H : BitVec 16) : ∃ B, headerWord B = H :=
  ⟨[H.extractLsb' 8 8, H.extractLsb' 0 8], BitVec.extractLsb'_append_extractLsb' (w := 8) (len := 8)⟩

end Sys2Proof
end

section
/-! SUPPORT. The members of the operand bundle that an instruction has, by `di` (R128). -/

namespace Sys2Proof.Machine

theorem memSizeCode_eq (sel : MemSizeSel) (h : Header) : memSizeCode sel h = if sel = .ss then h.ss else h.ds := by
  cases sel <;> rfl

/-- The immediate is the 8-byte field where there is one, else the displacement field (R132). -/
theorem immOperand_of_di {F : Fields} (hdi : F.hdr.di = 1#2) :
    immOperand F = some (F.ext64.getD (F.disp32.signExtend 64)) := by
  rw [immOperand, if_pos hdi]
  cases F.ext64 <;> rfl

theorem memOperand_of_di {h : Header} (sel : MemSizeSel) (d : BitVec 32) (hdi : h.di = 2#2 ∨ h.di = 3#2) :
    memOperand sel h d = some
      { base := flaggedRegister h.bp h.base, index := flaggedRegister h.ip h.index, scale := scaleFactor h.scale,
        displacement := some (displacementOf d), size := widthOf (if sel = .ss then h.ss else h.ds) } := by
  rw [memOperand, if_pos hdi, memSizeCode_eq]

end Sys2Proof.Machine
end

section
/-! SUPPORT. The settled obligations of 30_encoding.md. -/

open Sys2Proof Sys2Proof.Machine

namespace Sys2Proof.Claims

/-- Settles O14: the decoder's row keeps every field, and the fields encode to the bytes they were cut from. -/
theorem encodeOfDecodeIsTheBytes : Obligations.EncodeOfDecodeIsTheBytes :=
  fun _ _ _ _ h => ⟨wellFormed_of_decode h, encode_append_of_decode h⟩

/-- Settles O10: the row of the instruction that a header decodes to covers it, and the rows are apart. -/
theorem opcodeTableRowsPartitionHeaders : Obligations.OpcodeTableRowsPartitionHeaders := by
  intro H
  obtain ⟨B, rfl⟩ := exists_headerWord H
  have hrow := isRowOf_row_instrOf .immBit B 0#32 0#64
  exact ⟨_, Instr.row_mem _, hrow, fun r hr h => eq_of_isRowOf hr (Instr.row_mem _) h hrow⟩

/-- Settles O11: a header's one row is that of its instruction, whose format is the header's length. -/
theorem frameLengthIsTheRowsLength : Obligations.FrameLengthIsTheRowsLength := by
  intro B r hr h
  have row : IsRowOf .immBit B 0#32 0#64 _ := isRowOf_instrOf 0#32 0#64
  rw [eq_of_isRowOf hr (Instr.row_mem _) h (isRowOf_row_instrOf .immBit B 0#32 0#64),
    Instr.row_format row.wellFormed, row.format]

/-- Settles O12: the label of a decoded instruction is that of its row. -/
theorem decodedInstructionCarriesItsRowsLabel : Obligations.DecodedInstructionCarriesItsRowsLabel := by
  intro cfg B rest i h
  obtain ⟨-, rfl, -⟩ := decode_eq_ok h
  exact ⟨_, Instr.row_mem _, isRowOf_row_instrOf .., (Instr.row_label _).symm⟩

/-- Settles O40, member by member. -/
theorem bundleMembersByForm : Obligations.BundleMembersByForm := by
  refine ⟨rfl, rfl, rfl, rfl, fun cfg F => ⟨rfl, rfl, rfl, fun hdi => ?_, fun hdi => ?_, fun hdi => ?_, fun hdi => ?_⟩⟩
  · exact ⟨if_pos hdi, if_neg (by simp [hdi]), if_neg (by simp [hdi]), if_neg (by simp [hdi])⟩
  · exact ⟨if_neg (by simp [hdi]), immOperand_of_di hdi, if_neg (by simp [hdi]), if_neg (by simp [hdi])⟩
  · exact ⟨if_neg (by simp [hdi]), if_neg (by simp [hdi]), memOperand_of_di _ _ (.inl hdi), if_neg (by simp [hdi])⟩
  · exact ⟨if_neg (by simp [hdi]), if_neg (by simp [hdi]), memOperand_of_di _ _ (.inr hdi), if_pos hdi⟩

end Sys2Proof.Claims
end

section
/-! SUPPORT. The codec's arithmetic: what `extract` answers (R100 to R104), a composite byte as a sum (R105 to R109),
and the payload as an integer (R10, R111, R112). -/

namespace Sys2Proof

/-! ### The bit-slice primitive -/

theorem rangeOk_iff {start stop : Int} : rangeOk start stop = true ↔ 0 ≤ stop ∧ stop ≤ start ∧ start ≤ 7 := by
  simp [rangeOk, and_assoc]

theorem extract_of_range {start stop : Int} (b : Byte) (h : 0 ≤ stop ∧ stop ≤ start ∧ start ≤ 7) :
    extract b start stop = .ok (b.toNat / 2 ^ stop.toNat % 2 ^ (start - stop + 1).toNat) := by
  rw [extract, if_pos (rangeOk_iff.2 h), Nat.shiftRight_eq_div_pow]

theorem extract_of_not_range {start stop : Int} (b : Byte) (h : ¬ (0 ≤ stop ∧ stop ≤ start ∧ start ≤ 7)) :
    extract b start stop = .error (.invalidRange start stop) := by
  rw [extract, if_neg (mt rangeOk_iff.1 h)]

/-- A field as wide as its range is what `extract` answers (R103). -/
theorem extract_eq_fieldOf (w stop : Nat) (b : Byte) (hw : 0 < w) (hs : stop + w ≤ 8) :
    extract b (stop + w - 1 : Int) stop = .ok (fieldOf w b (stop + w - 1 : Int) stop).toNat := by
  have hlen : (stop + w - 1 - stop + 1 : Int).toNat = w := by omega
  rw [fieldOf_eq_extractLsb' w stop b hw hs, extract_of_range b (by omega), hlen, Int.toNat_natCast,
    BitVec.extractLsb'_toNat, Nat.shiftRight_eq_div_pow]

/-! ### The composite bytes -/

theorem toNat_append_eq_add {m n : Nat} (x : BitVec m) (y : BitVec n) :
    (x ++ y).toNat = 2 ^ n * x.toNat + y.toNat := by
  rw [BitVec.toNat_append, ← Nat.shiftLeft_add_eq_or_of_lt y.isLt, Nat.shiftLeft_eq, Nat.mul_comm]

theorem sibByte_eq_append (bp ip : BitVec 1) (scale : BitVec 2) (index : RegId) :
    sibByte bp ip scale index = (bp ++ ip ++ scale ++ index : BitVec (1 + 1 + 2 + 4)) := by
  rw [← BitVec.setWidth_eq (bp ++ ip ++ scale ++ index),
    BitVec.setWidth_append_append_append_eq_shiftLeft_setWidth_or]
  rfl

/-- The form of `opcode` and of `rm` (R105, R108) as a sum. -/
theorem toNat_opcodeByte (hi lo : BitVec 4) : (opcodeByte hi lo).toNat = 16 * hi.toNat + lo.toNat := by
  rw [opcodeByte_eq_append, toNat_append_eq_add]
  omega

theorem toNat_modeByte (ss ds di mem : BitVec 2) :
    (modeByte ss ds di mem).toNat = 64 * ss.toNat + 16 * ds.toNat + 4 * di.toNat + mem.toNat := by
  rw [modeByte_eq_append]
  simp only [toNat_append_eq_add]
  omega

theorem toNat_sibByte (bp ip : BitVec 1) (scale : BitVec 2) (index : RegId) :
    (sibByte bp ip scale index).toNat = 128 * bp.toNat + 64 * ip.toNat + 16 * scale.toNat + index.toNat := by
  rw [sibByte_eq_append]
  simp only [toNat_append_eq_add]
  omega

/-! ### Payload -/

/-- A field as wide as its byte string is the integer the string denotes. -/
theorem toNat_ofNat_intOf (order : PayloadOrder) (bs : List Byte) :
    (BitVec.ofNat (8 * bs.length) (intOf order bs)).toNat = intOf order bs := by
  rw [BitVec.toNat_ofNat, Nat.pow_mul]
  exact Nat.mod_eq_of_lt (intOf_lt order bs)

theorem toNat_disp32Of (order : PayloadOrder) (B : List Byte) :
    (disp32Of order B).toNat = intOf order [byteAt B 4, byteAt B 5, byteAt B 6, byteAt B 7] :=
  toNat_ofNat_intOf order [_, _, _, _]

theorem toNat_ext64Of (order : PayloadOrder) (B : List Byte) :
    (ext64Of order B).toNat = intOf order [byteAt B 8, byteAt B 9, byteAt B 10, byteAt B 11,
      byteAt B 12, byteAt B 13, byteAt B 14, byteAt B 15] :=
  toNat_ofNat_intOf order [_, _, _, _, _, _, _, _]

theorem leInt_leBytes (n v : Nat) : leInt (leBytes n v) = v % 256 ^ n := by
  induction n generalizing v with
  | zero => rw [pow_zero, Nat.mod_one, leBytes, leInt]
  | succ n ih => rw [leBytes, leInt, ih, BitVec.toNat_ofNat, pow_succ' 256, Nat.mod_mul]

/-- The integer that the bytes of a value denote is the value, cut to as many bytes (R10). -/
theorem intOf_bytesOf (order : PayloadOrder) (n v : Nat) : intOf order (bytesOf order n v) = v % 256 ^ n := by
  cases order with
  | le => exact leInt_leBytes n v
  | be => rw [intOf, bytesOf, List.reverse_reverse, leInt_leBytes]

/-- Values of `n` bytes with the same bytes are the same. -/
theorem bytesOf_injective {order : PayloadOrder} {n : Nat} {x y : BitVec (8 * n)}
    (h : bytesOf order n x.toNat = bytesOf order n y.toNat) : x = y := by
  have hlt (z : BitVec (8 * n)) : z.toNat < 256 ^ n := by
    have hz := z.isLt
    rwa [Nat.pow_mul] at hz
  apply BitVec.eq_of_toNat_eq
  rw [← Nat.mod_eq_of_lt (hlt x), ← intOf_bytesOf order, h, intOf_bytesOf, Nat.mod_eq_of_lt (hlt y)]

end Sys2Proof
end

section
/-! SUPPORT. Encodings determine what they encode: a field tuple with its payload, and a well-formed instruction
(R113, R114). -/

namespace Sys2Proof

theorem headerOf_encodeBytes (order : PayloadOrder) (h : Header) (d : BitVec 32) (ext : Option Word) :
    headerOf (encodeBytes order h d ext) = h := by
  unfold encodeBytes
  rw [List.append_assoc, headerOf_bytes_append]

/-- The length of an encoding is the one its header bytes say (R152). -/
theorem frameLength_encodeBytes (rule : FrameRule) (order : PayloadOrder) (h : Header) (d : BitVec 32)
    (ext : Option Word) : frameLength rule (encodeBytes order h d ext) = frameLength rule h.bytes := by
  unfold encodeBytes
  rw [List.append_assoc]
  exact frameLength_append _ ((headerBytes_le rule).trans (by decide : 3 ≤ 4))

/-- The header of a byte string says the string's length (R152). -/
theorem frameLength_bytes_headerOf (rule : FrameRule) (B : List Byte) :
    frameLength rule (headerOf B).bytes = frameLength rule B := by
  apply frameLength_congr
  intro k hk
  have hk3 : k < 3 := Nat.lt_of_lt_of_le hk (headerBytes_le rule)
  rw [bytes_headerOf]
  interval_cases k <;> rfl

/-- Equal encodings have the same header, displacement and 8-byte field. -/
theorem encodeBytes_injective {order : PayloadOrder} {h h' : Header} {d d' : BitVec 32} {ext ext' : Option Word}
    (e : encodeBytes order h d ext = encodeBytes order h' d' ext') : h = h' ∧ d = d' ∧ ext = ext' := by
  have hh : h = h' := by rw [← headerOf_encodeBytes order h d ext, e, headerOf_encodeBytes]
  obtain ⟨front, hext⟩ := List.append_inj e (by simp [Header.bytes])
  obtain ⟨-, hd⟩ := List.append_inj front rfl
  refine ⟨hh, bytesOf_injective hd, ?_⟩
  cases ext with
  | none =>
    cases ext' with
    | none => rfl
    | some y => exact absurd (congrArg List.length hext) (by simp)
  | some x =>
    cases ext' with
    | none => exact absurd (congrArg List.length hext) (by simp)
    | some y => exact congrArg some (bytesOf_injective hext)

/-- The fields decoded from an encoding are those encoded (R114). -/
theorem decodeFields_encodeBytes (order : PayloadOrder) (h : Header) (d : BitVec 32) (ext : Option Word) (a : Addr) :
    decodeFields order (encodeBytes order h d ext) (formatOf ext) a =
      { hdr := h, disp32 := d, ext64 := ext, len := formatOf ext, addr := a } := by
  obtain ⟨hhdr, hdisp, hext⟩ := encodeBytes_injective
    (encodeBytes_decodeFields a (length_encodeBytes order h d ext))
  exact (Fields.mk.injEq ..).mpr ⟨hhdr, hdisp, hext, rfl, rfl⟩

theorem formatOf_decodeFields (order : PayloadOrder) (B : List Byte) (len : Format) (a : Addr) :
    formatOf (decodeFields order B len a).ext64 = len := by cases len <;> rfl

theorem encodeTuple_eq_some {cfg : Config} {h : Header} {d : BitVec 32} {ext : Option Word} {B : List Byte} :
    encodeTuple cfg h d ext = some B ↔
      frameLength cfg.frameRule h.bytes = formatOf ext ∧ encodeBytes cfg.payloadOrder h d ext = B := by
  rw [encodeTuple, Option.ite_none_right_eq_some, Option.some_inj]

/-- Well-formed instructions with the same bytes are the same: both are the row of the one header. -/
theorem encode_injective {cfg : Config} {i j : Instr} (wi : WellFormed cfg i) (wj : WellFormed cfg j)
    (h : encode cfg i = encode cfg j) : i = j := by
  obtain ⟨hhdr, hdisp, hext⟩ := encodeBytes_injective h
  rw [← Laws.RoundTrip.all i _ 0#64 wi, hhdr, hdisp, hext, Laws.RoundTrip.all j _ 0#64 wj]

/-- Bytes behind an encoding leave the length that its header says, the instruction's (R152). -/
theorem frameLength_encode_append {cfg : Config} {i : Instr} (rest : List Byte) (wf : WellFormed cfg i) :
    frameLength cfg.frameRule (encode cfg i ++ rest) = i.format := by
  have hheader : headerBytes cfg.frameRule ≤ (encode cfg i).length := by
    have h3 := headerBytes_le cfg.frameRule
    have h8 := Machine.eight_le_bytes i.format
    rw [length_encode]
    omega
  rw [frameLength_append rest hheader, frameLength_encode wf]

end Sys2Proof
end

section
/-! SUPPORT. The settled obligations of 40_bitfield_codec.md. -/

open Sys2Proof Sys2Proof.Machine

namespace Sys2Proof.Claims

/-- Settles O13: what the decoder finds is well-formed and encodes to the same bytes, so it is the instruction. -/
theorem decodeOfEncodeIsTheInstruction : Obligations.DecodeOfEncodeIsTheInstruction := by
  intro cfg i rest wf
  have hlen : (frameLength cfg.frameRule (encode cfg i ++ rest)).bytes = (encode cfg i).length := by
    rw [frameLength_encode_append rest wf, length_encode]
  have hdec := decode_total (cfg := cfg) (B := encode cfg i ++ rest) (by simp [hlen])
  rw [hlen, List.drop_left] at hdec
  have hbytes := List.append_cancel_right (encode_append_of_decode hdec)
  rw [hdec, encode_injective (wellFormed_of_decode hdec) wf hbytes]

/-- Settles O1: the two kinds of range exclude each other, and a slice is a remainder. -/
theorem extractSlicesOrRaisesInvalidRange : Obligations.ExtractSlicesOrRaisesInvalidRange := by
  intro b start stop
  refine ⟨fun h => ⟨_, extract_of_range b h, rfl, ?_⟩, fun h => extract_of_not_range b (by omega)⟩
  exact Nat.le_sub_one_of_lt (Nat.mod_lt _ (Nat.two_pow_pos _))

/-- Settles O2: twelve ranges inside the byte, each as wide as its field. -/
theorem accessorsAreFixedRangeExtracts : Obligations.AccessorsAreFixedRangeExtracts := by
  intro B
  have nibble (stop : Nat) (b : Byte) (hs : stop ≤ 4) := extract_eq_fieldOf 4 stop b (by omega) (by omega)
  have pair (stop : Nat) (b : Byte) (hs : stop ≤ 6) := extract_eq_fieldOf 2 stop b (by omega) (by omega)
  have bit (stop : Nat) (b : Byte) (hs : stop ≤ 7) := extract_eq_fieldOf 1 stop b (by omega) (by omega)
  exact ⟨nibble 4 _ (by omega), nibble 0 _ (by omega),
    pair 6 _ (by omega), pair 4 _ (by omega), pair 2 _ (by omega), pair 0 _ (by omega),
    bit 7 _ (by omega), bit 6 _ (by omega), pair 4 _ (by omega), nibble 0 _ (by omega),
    nibble 4 _ (by omega), nibble 0 _ (by omega)⟩

/-- Settles O3: a composite byte is its fields written one after the other. -/
theorem compositeBytesAreFieldSums : Obligations.CompositeBytesAreFieldSums :=
  fun _ => ⟨toNat_opcodeByte .., toNat_modeByte .., toNat_sibByte .., toNat_opcodeByte ..⟩

/-- Settles O4: one direction reads only the four composite bytes, the other makes each of them of its fields. -/
theorem headerCodecRoundTrip : Obligations.HeaderCodecRoundTrip :=
  ⟨headerOf_bytes_append, fun _ _ _ _ _ => bytes_headerOf _⟩

/-- Settles O5: each slicer is the integer of its own bytes, written out in each order. -/
theorem payloadSlicersFollowByteOrder : Obligations.PayloadSlicersFollowByteOrder := by
  intro b0 b1 b2 b3 b4 b5 b6 b7 b8 b9 b10 b11 b12 b13 b14 b15 B
  have disp (order : PayloadOrder) : (disp32Of order B).toNat = intOf order [b4, b5, b6, b7] := toNat_disp32Of order B
  have ext (order : PayloadOrder) : (ext64Of order B).toNat = intOf order [b8, b9, b10, b11, b12, b13, b14, b15] :=
    toNat_ext64Of order B
  have reversed4 : [b4, b5, b6, b7].reverse = [b7, b6, b5, b4] := rfl
  have reversed8 : [b8, b9, b10, b11, b12, b13, b14, b15].reverse = [b15, b14, b13, b12, b11, b10, b9, b8] := rfl
  simp only [disp, ext, intOf, reversed4, reversed8, leInt]
  refine ⟨?_, ?_, ?_, ?_⟩ <;> omega

/-- Settles O6: an encoding determines its fields, and the fields of a byte string of its own length encode to it. -/
theorem wholeInstructionRoundTrip : Obligations.WholeInstructionRoundTrip := by
  refine fun cfg => ⟨fun h d ext B a e => ?_, fun B a hlen => ?_⟩
  · obtain ⟨agree, rfl⟩ := encodeTuple_eq_some.1 e
    rw [frameLength_encodeBytes, agree]
    exact ⟨length_encodeBytes .., decodeFields_encodeBytes ..⟩
  · refine encodeTuple_eq_some.2 ⟨?_, encodeBytes_decodeFields a hlen⟩
    exact (frameLength_bytes_headerOf ..).trans (formatOf_decodeFields ..).symm

end Sys2Proof.Claims
end

section
/-! SUPPORT. Operands and their text: which base or index has an effective address and what the terms of one are (R133,
R134), relocation (R135), digits (R139, R140) and the parts of a memory operand's text (R139). -/

open Sys2Proof.Claims

namespace Sys2Proof.Machine

/-! ### Effective address and relocation -/

theorem isNarrow_eq_true_iff {r : Option RegisterOperand} : isNarrow r = true ↔ ∃ o, r = some o ∧ o.size ≠ .w64 := by
  cases r <;> simp [isNarrow]

theorem isNarrow_eq_false_iff {r : Option RegisterOperand} :
    isNarrow r = false ↔ ∀ o, r = some o → o.size = .w64 := by
  cases r <;> simp [isNarrow]

/-- The register term of an address as an integer, 0 when absent (R133). -/
theorem registerTerm_eq_ofInt (regs : Vector Word 16) (r : Option RegisterOperand) :
    registerTerm regs r = BitVec.ofInt 64 ((r.map fun o => ((readReg regs o.id).toNat : Int)).getD 0) := by
  cases r <;> simp [registerTerm]

/-- The displacement term of an address as a signed integer, 0 when absent (R133). -/
theorem displacement_getD_eq_ofInt (d : Option Word) :
    d.getD 0#64 = BitVec.ofInt 64 ((d.map BitVec.toInt).getD 0) := by
  cases d <;> simp

theorem relocate_relocate (m : MemoryOperand) (d1 d2 : Word) :
    relocate (relocate m d1) d2 = relocate m (d1 + d2) := by
  simp [relocate, Function.comp_def, BitVec.add_assoc]

theorem relocate_zero (m : MemoryOperand) : relocate m 0#64 = m := by
  simp [relocate]

/-! ### Hexadecimal digits -/

theorem hexDigit_eq_getD {n : Nat} (h : n < 16) : hexDigit n = "0123456789abcdef".toList.getD n '?' := by
  revert n
  decide

theorem hexDigit_inj {m n : Nat} (hm : m < 16) (hn : n < 16) (h : hexDigit m = hexDigit n) : m = n := by
  have table : ∀ m < 16, ∀ n < 16, hexDigit m = hexDigit n → m = n := by decide
  exact table m hm n hn h

theorem length_hexDigits (k n : Nat) : (hexDigits k n).length = k := by
  induction k generalizing n with
  | zero => rfl
  | succ k ih => simp [hexDigits, ih]

theorem hexDigits_inj {k m n : Nat} (hm : m < 16 ^ k) (hn : n < 16 ^ k) (h : hexDigits k m = hexDigits k n) :
    m = n := by
  induction k generalizing m n with
  | zero => omega
  | succ k ih =>
    obtain ⟨hinit, hlast⟩ := List.append_inj' h rfl
    have hdiv : m / 16 = n / 16 := ih (by omega) (by omega) hinit
    have hmod : m % 16 = n % 16 :=
      hexDigit_inj (Nat.mod_lt m (by decide)) (Nat.mod_lt n (by decide)) (List.cons.inj hlast).1
    omega

theorem hexText_succ (k v : Nat) :
    hexText (k + 1) v = hexText k (v / 16) ++ ["0123456789abcdef".toList.getD (v % 16) '?'] := by
  rw [hexText, List.range_succ, List.map_append, hexText]
  congr 1
  · refine List.map_congr_left fun j hj => ?_
    have hexp : k - j = (k - 1 - j) + 1 := by
      have := List.mem_range.1 hj
      omega
    rw [Nat.add_sub_cancel, hexp, Nat.pow_succ', Nat.div_div_eq_div_mul]
  · simp

/-- Digits taken off the low end one by one are the digits of the powers of 16 (R140). -/
theorem hexDigits_eq_hexText (k v : Nat) : hexDigits k v = hexText k v := by
  induction k generalizing v with
  | zero => rfl
  | succ k ih => rw [hexDigits, ih, hexText_succ, hexDigit_eq_getD (Nat.mod_lt v (by decide))]

/-! ### The text of a displacement -/

/-- How many digits `hexdisp` writes (R140). -/
def hexWidth (d : Word) : Nat := if -2147483648 ≤ d.toInt ∧ d.toInt < 2147483648 then 8 else 16

theorem hexWidth_cases (d : Word) :
    ((-2147483648 ≤ d.toInt ∧ d.toInt < 2147483648) ∧ hexWidth d = 8) ∨
    (¬ (-2147483648 ≤ d.toInt ∧ d.toInt < 2147483648) ∧ hexWidth d = 16) := by
  by_cases fits : -2147483648 ≤ d.toInt ∧ d.toInt < 2147483648
  · exact .inl ⟨fits, if_pos fits⟩
  · exact .inr ⟨fits, if_neg fits⟩

theorem toNat_mod_pow_sixteen (d : Word) : d.toNat % 16 ^ 16 = d.toNat := Nat.mod_eq_of_lt d.isLt

/-- The two cases of `hexdisp` as one: the low digits of the pattern, as many as its width. -/
theorem hexdisp_eq (d : Word) : hexdisp d = '0' :: 'x' :: hexDigits (hexWidth d) (d.toNat % 16 ^ hexWidth d) := by
  rcases hexWidth_cases d with ⟨fits, hwidth⟩ | ⟨fits, hwidth⟩
  · rw [hexdisp, if_pos fits, hwidth]
    rfl
  · rw [hexdisp, if_neg fits, hwidth, toNat_mod_pow_sixteen]

/-- A value that fits 32 signed bits is the sign extension of its low 32, so the digits written determine it. -/
theorem eq_of_hexWidth_eq {d d' : Word} (hwidth : hexWidth d = hexWidth d')
    (hmod : d.toNat % 16 ^ hexWidth d = d'.toNat % 16 ^ hexWidth d) : d = d' := by
  apply BitVec.eq_of_toInt_eq
  have hd := BitVec.toInt_eq_toNat_cond d
  have hd' := BitVec.toInt_eq_toNat_cond d'
  rcases hexWidth_cases d with ⟨fits, eight⟩ | ⟨-, sixteen⟩
  · rw [eight] at hmod
    have fits' : -2147483648 ≤ d'.toInt ∧ d'.toInt < 2147483648 := by
      have := hexWidth_cases d'
      omega
    split at hd <;> split at hd' <;> omega
  · rw [sixteen] at hmod
    omega

/-- The length of a text tells its width, and its digits the value. -/
theorem hexdisp_inj {d d' : Word} (h : hexdisp d = hexdisp d') : d = d' := by
  rw [hexdisp_eq, hexdisp_eq, List.cons_inj_right, List.cons_inj_right] at h
  have hwidth : hexWidth d = hexWidth d' := by simpa [length_hexDigits] using congrArg List.length h
  rw [← hwidth] at h
  exact eq_of_hexWidth_eq hwidth (hexDigits_inj (Nat.mod_lt _ (by positivity)) (Nat.mod_lt _ (by positivity)) h)

/-! ### The text of a memory operand -/

/-- The four scale factors in base ten (R125, R139). -/
theorem decimal_scale : ∀ k : BitVec 2, decimal (2 ^ k.toNat) = (["1", "2", "4", "8"].getD k.toNat "").toList := by
  decide

theorem render_mem (m : MemoryOperand) :
    render (.mem m) = (m.displacement.map hexdisp).getD [] ++ "(".toList ++ renderBase Config.regName m.base ++
      renderIndex Config.regName m.index m.scale ++ ")".toList := by
  rw [render, renderWith, renderMemWith]
  cases m.displacement <;> rfl

@[simp] theorem renderBase_none (regName : RegId → Width → Text) : renderBase regName none = [] := rfl

@[simp] theorem renderBase_some (regName : RegId → Width → Text) (r : RegisterOperand) :
    renderBase regName (some r) = regName r.id r.size := rfl

@[simp] theorem renderIndex_none (regName : RegId → Width → Text) (scale : Int) :
    renderIndex regName none scale = [] := rfl

@[simp] theorem renderIndex_some (regName : RegId → Width → Text) (r : RegisterOperand) (scale : Int) :
    renderIndex regName (some r) scale = ", ".toList ++ regName r.id r.size ++ ", ".toList ++ decimal scale := rfl

end Sys2Proof.Machine
end

section
/-! SUPPORT. The settled obligations of 41_addressing_operands.md. -/

open Sys2Proof Sys2Proof.Machine

namespace Sys2Proof.Claims

/-- With room, the cycle of a class leaves what R210 to R217 write, whichever terminal was asked for. -/
theorem classCycle_eq_cycleResult (c : ClassId) (h : Header) (d : BitVec 32) (ext : Option Word) {s : State}
    (room : RoomFor s (formatOf ext).bytes) :
    classCycle c h d ext s = .next (cycleResult c (1#8 <<< c.toNat) (formatOf ext) h d ext s) := by
  rw [classCycle_next (passesTop_eq_false_iff.2 room)]
  obtain ⟨config, progStart, progEnd, layout, reqAddr, reqTerminal, run, inst, machine⟩ := s
  cases reqTerminal with
  | disassemble => rfl
  | execute => rfl

/-- Settles O30: each row is the cycle of its own class with no 8-byte field. -/
theorem shortClassesComplete : Obligations.ShortClassesComplete := by
  intro s ss di c room
  have row (k : ClassId) (h : Header) := classCycle_eq_cycleResult k h c.disp32 none room
  exact ⟨row 0#3 _, row 3#3 _, row 4#3 _, row 5#3 _, row 6#3 _, row 7#3 _⟩

/-- Settles O31: each row is the cycle of class 1 with no 8-byte field. -/
theorem class1ShortRowsComplete : Obligations.Class1ShortRowsComplete := by
  intro s ss c room
  have row (h : Header) := classCycle_eq_cycleResult 1#3 h c.disp32 none room
  exact ⟨row _, row _, row _, row _, row _, row _⟩

/-- Settles O32: each row is the cycle of class 1 with its 8-byte field. -/
theorem class1LongRowsComplete : Obligations.Class1LongRowsComplete := by
  intro s ss c e room
  have row (h : Header) := classCycle_eq_cycleResult 1#3 h c.disp32 (some e) room
  exact ⟨row _, row _, row _⟩

/-- Settles O33: each row is the cycle of class 2 with no 8-byte field. -/
theorem class2ShortRowsComplete : Obligations.Class2ShortRowsComplete := by
  intro s ss c room
  have row (h : Header) := classCycle_eq_cycleResult 2#3 h c.disp32 none room
  exact ⟨row _, row _, row _, row _, row _, row _⟩

/-- Settles O34: each row is the cycle of class 2 with its 8-byte field. -/
theorem class2LongRowsComplete : Obligations.Class2LongRowsComplete := by
  intro s ss c e room
  have row (h : Header) := classCycle_eq_cycleResult 2#3 h c.disp32 (some e) room
  exact ⟨row _, row _, row _⟩

/-- Settles O42: every term is a word of an integer, and the words of integers add and multiply as the integers do. -/
theorem effectiveAddressIsTheModularSum : Obligations.EffectiveAddressIsTheModularSum := by
  refine fun m regs => ⟨fun ⟨hbase, hindex⟩ => ?_, fun ⟨r, hr, narrow⟩ => if_pos ?_⟩
  · refine ⟨_, if_neg (by simp [isNarrow_eq_false_iff.2 hbase, isNarrow_eq_false_iff.2 hindex]), ?_⟩
    rw [registerTerm_eq_ofInt, registerTerm_eq_ofInt, displacement_getD_eq_ofInt, ← BitVec.ofInt_mul,
      ← BitVec.ofInt_add, ← BitVec.ofInt_add, BitVec.toNat_ofInt]
    exact Int.toNat_of_nonneg (Int.emod_nonneg _ (by decide))
  · rcases hr with hbase | hindex
    · rw [isNarrow_eq_true_iff.2 ⟨r, hbase, narrow⟩, Bool.true_or]
    · rw [isNarrow_eq_true_iff.2 ⟨r, hindex, narrow⟩, Bool.or_true]

/-- Settles O43: relocation adds to the displacement where there is one, and addition of words is associative. -/
theorem relocationLaws : Obligations.RelocationLaws := by
  intro m d1 d2
  refine ⟨rfl, rfl, rfl, rfl, fun absent => ?_, fun d present => ⟨d + d1, ?_, BitVec.toInt_add ..⟩,
    relocate_relocate .., relocate_zero m⟩
  · simp [relocate, absent]
  · simp [relocate, present]

/-- Settles O45: the digits of each width are those of the powers of 16, and the text determines the displacement. -/
theorem hexDisplacementIsFaithful : Obligations.HexDisplacementIsFaithful := by
  refine ⟨fun d => ?_, fun _ _ => hexdisp_inj⟩
  have cons_eq (t : Text) : '0' :: 'x' :: t = "0x".toList ++ t := rfl
  rw [hexdisp_eq, hexDigits_eq_hexText, cons_eq, List.append_right_inj]
  rcases hexWidth_cases d with ⟨fits, hwidth⟩ | ⟨fits, hwidth⟩
  · rw [hwidth]
    exact (if_pos fits).symm
  · rw [hwidth, toNat_mod_pow_sixteen]
    exact (if_neg fits).symm

/-- Settles O41: a memory operand is there only for `di` 2 or 3, and sign extension keeps the signed value. -/
theorem displacementKeepsTheSignedValue : Obligations.DisplacementKeepsTheSignedValue := by
  intro cfg F m h
  by_cases hdi : F.hdr.di = 2#2 ∨ F.hdr.di = 3#2
  · cases (memOperand_of_di _ _ hdi).symm.trans h
    exact ⟨_, rfl, BitVec.toInt_signExtend_of_le (by decide)⟩
  · cases (if_neg hdi).symm.trans h

/-- Settles O44: the three optional parts of the text, present or absent, one case each. -/
theorem renderedMemoryOperands : Obligations.RenderedMemoryOperands := by
  intro b i d z
  refine ⟨fun k => ?_, ?_⟩
  · simp [render_mem, decimal_scale]
  · have digitsOfEight : hexdisp 8#64 = "0x00000008".toList := by decide
    simp [render_mem, digitsOfEight]

end Sys2Proof.Claims
end

section
/-! SUPPORT. The boundary walk as membership (R157, R158): where it can be read it answers, and answers true exactly for
the boundaries up to its end. -/

namespace Sys2Proof.Machine

theorem Boundary.le {rule : FrameRule} {m : Memory} {lo hi a : Nat} (h : Boundary rule m lo hi a) : lo ≤ a := by
  obtain ⟨k, rfl⟩ := h.eq_add_mul
  exact Nat.le_add_right ..

theorem not_boundary_of_lt {rule : FrameRule} {m : Memory} {lo hi a : Nat} (hlt : a < lo) :
    ¬ Boundary rule m lo hi a := fun h => Nat.not_le.2 hlt h.le

/-- The walk from `a` finds `q` exactly where `q` is a boundary from `a` on; every instruction has at least 8 bytes, so
the fuel reaches past `q`. -/
theorem walk_answers {rule : FrameRule} {m : Memory} {q hi n a : Nat} (readable : WalkReadable rule m a hi)
    (fuel : q < a + 8 * n) :
    ∃ r, walk rule m q hi n a = .next r ∧ (r = true ↔ Boundary rule m a hi q ∧ q ≤ hi) := by
  induction n generalizing a with
  | zero => exact ⟨false, rfl, iff_of_false Bool.false_ne_true fun h => not_boundary_of_lt fuel h.1⟩
  | succ n ih =>
    rw [walk]
    split_ifs with hfound hpast
    · obtain ⟨rfl, hle⟩ := hfound
      exact ⟨true, rfl, by simp [hle, Boundary.start]⟩
    · refine ⟨false, rfl, iff_of_false Bool.false_ne_true fun ⟨h, hle⟩ => ?_⟩
      rcases hpast with hlt | hge
      · exact not_boundary_of_lt hlt h
      · obtain rfl := (boundary_of_le hge).1 h
        exact hfound ⟨rfl, hle⟩
    · have inside : a < hi := by omega
      obtain ⟨B, header, room⟩ := readable a .start inside
      have hlen := eight_le_bytes (frameLength rule B)
      have behind (x : Nat) := boundary_iff_of_header (a := x) inside header room
      rw [header, andThen_next, if_neg (by omega), behind, or_iff_right (by omega)]
      exact ih (fun x hx => readable x ((behind x).2 (.inr hx))) (by omega)

variable {rule : FrameRule} {m : Memory} {lo hi q : Addr}

theorem check_answers (q : Addr) (readable : WalkReadable rule m lo.toNat hi.toNat) :
    ∃ r, check rule m lo hi q = .next r ∧ (r = true ↔ Boundary rule m lo.toNat hi.toNat q.toNat ∧ q ≤ hi) :=
  walk_answers readable (by omega)

theorem check_eq_true (readable : WalkReadable rule m lo.toNat hi.toNat)
    (h : Boundary rule m lo.toNat hi.toNat q.toNat) (hle : q ≤ hi) : check rule m lo hi q = .next true := by
  obtain ⟨r, hr, hiff⟩ := check_answers q readable
  rw [hr, hiff.2 ⟨h, hle⟩]

theorem check_eq_false (readable : WalkReadable rule m lo.toNat hi.toNat)
    (h : ¬ (Boundary rule m lo.toNat hi.toNat q.toNat ∧ q ≤ hi)) : check rule m lo hi q = .next false := by
  obtain ⟨r, hr, hiff⟩ := check_answers q readable
  rw [hr, Bool.eq_false_iff.2 (mt hiff.1 h)]

end Sys2Proof.Machine
end

section
/-! SUPPORT. What dispatch leaves on its outputs (R165, R166), and how a cycle ends before it fetches (R159). -/

namespace Sys2Proof.Machine

/-! ### Dispatch -/

@[simp] theorem toTerminal_inst_classSel (c : ClassId) (F : Fields) (O : Bundle) (n : NextAddr) (s : State) :
    (toTerminal c F O n s).inst.classSel = s.inst.classSel := by unfold toTerminal; split <;> rfl
@[simp] theorem toTerminal_inst_err (c : ClassId) (F : Fields) (O : Bundle) (n : NextAddr) (s : State) :
    (toTerminal c F O n s).inst.err = s.inst.err := by unfold toTerminal; split <;> rfl

/-- What a meaning that answers next shows of dispatch: the one-hot select of a class with a handler and no error
(R165), or the error of a class without one and no select (R166). -/
theorem exec_dispatch {i : Instr} {s t : State} (wf : WellFormed s.config i) (e : exec i s = .next t) :
    (i.header.cls < 8#4 ∧ t.inst.classSel = 1#8 <<< i.header.cls.toNat ∧ t.inst.err = none) ∨
    (8#4 ≤ i.header.cls ∧ t.inst.classSel = 0#8 ∧
      t.inst.err = some (.unknownOpcodeClass i.header.cls s.reqAddr)) := by
  rcases exec_eq i s with ⟨c, hexec, hc⟩ | ⟨cls, ss, di, sl, rfl, hexec⟩
  · obtain ⟨-, rfl⟩ := classCycle_eq_next (hexec ▸ e)
    have hnat : (c.setWidth 4).toNat = c.toNat := BitVec.toNat_setWidth_of_le (by decide)
    rw [hc, hnat]
    exact .inl ⟨classId_lt_eight c, toTerminal_inst_classSel .., toTerminal_inst_err ..⟩
  · obtain ⟨-, rfl⟩ := unknownClassCycle_eq_next (hexec ▸ e)
    exact .inr ⟨of_decide_eq_true wf, rfl, rfl⟩

/-- A select of 8 bits is one-hot for each of the eight classes with a handler (R165). -/
theorem toNat_one_shiftLeft_of_lt : ∀ cls : BitVec 4, cls < 8#4 → (1#8 <<< cls.toNat).toNat = 2 ^ cls.toNat := by
  decide

/-! ### Before the fetch -/

/-- A cycle asked for at no boundary raises `MisalignedAddress` before any fetch (R159, R225). -/
theorem decodeCycleWith_of_misaligned {meaning : Instr → State → Res State} {s : State}
    (hlayout : s.layoutSupplied = true) (hcheck : s.checkRequest = .next false) :
    decodeCycleWith meaning s = .next (raiseError (.misalignedAddress s.reqAddr) { s with inst := Instance.idle }) := by
  rw [decodeCycleWith, if_neg (by simp [hlayout]), hcheck, andThen_next, if_pos rfl]

/-- A cycle asked for where no instruction begins any more is refused (R159, R229). -/
theorem decodeCycleWith_of_progEnd_le {meaning : Instr → State → Res State} {s : State}
    (hlayout : s.layoutSupplied = true) (hcheck : s.checkRequest = .next true) (hle : s.progEnd ≤ s.reqAddr) :
    decodeCycleWith meaning s = .refused .atProgEnd := by
  rw [decodeCycleWith, if_neg (by simp [hlayout]), hcheck, andThen_next, if_neg (by simp), if_pos hle]

/-- Bytes that stand in memory and decode with nothing left over are one whole instruction (R60, R61). -/
theorem wholeInstr_of_decode {cfg : Config} {m : Memory} {a : Addr} {B : List Byte} {i : Instr}
    (stands : memRead m a.toNat B.length = .next B) (h : decode cfg B = .ok (i, [])) : WholeInstr cfg a B := by
  obtain ⟨room, -, -⟩ := memRead_eq_next stands
  obtain ⟨hle, -, hrest⟩ := decode_eq_ok h
  have hlen : B.length = (frameLength cfg.frameRule B).bytes := Nat.le_antisymm (List.drop_eq_nil_iff.1 hrest.symm) hle
  exact ⟨hlen, passesTop_eq_false_iff.2 (hlen ▸ room)⟩

end Sys2Proof.Machine
end

section
/-! SUPPORT. The settled obligations of 42_framing_dispatch.md. -/

open Sys2Proof Sys2Proof.Machine

namespace Sys2Proof.Claims

/-- Settles O9: the conditions on the length name no other byte. -/
theorem frameLengthReadsHeaderBytesOnly : Obligations.FrameLengthReadsHeaderBytesOnly := fun _ _ _ => frameLength_congr

/-- Settles O16, by induction on the fuel of the walk. -/
theorem checkIsBoundaryMembership : Obligations.CheckIsBoundaryMembership := fun _ _ _ _ q => check_answers q

/-- Settles O17: the boundaries are the start and those from the end of the first instruction on. -/
theorem checkOfTheFirstInstruction : Obligations.CheckOfTheFirstInstruction := by
  intro rule m lo hi B readable header hend
  have hhi : hi.toNat < addressSpace := hi.isLt
  have hlen := eight_le_bytes (frameLength rule B)
  have inside : lo.toNat < hi.toNat := by omega
  have room : lo.toNat + (frameLength rule B).bytes ≤ addressSpace := by omega
  have hadd (k : Nat) (hk : k ≤ (frameLength rule B).bytes) : (lo + BitVec.ofNat 64 k).toNat = lo.toNat + k := by
    rw [BitVec.toNat_add, BitVec.toNat_ofNat]
    omega
  refine ⟨check_eq_true readable .start (Nat.le_of_lt inside), check_eq_true readable ?_ ?_, fun k hpos hk => ?_⟩
  · rw [hadd _ (Nat.le_refl _)]
    exact Boundary.start.next inside header room
  · rw [BitVec.le_def, hadd _ (Nat.le_refl _)]
    exact hend
  · refine check_eq_false readable fun ⟨h, _⟩ => ?_
    rw [hadd k (Nat.le_of_lt hk), boundary_iff_of_header inside header room] at h
    rcases h with hstart | hrest
    · omega
    · exact not_boundary_of_lt (by omega) hrest

/-- Settles O26: `PROG_END` is turned down after the check, and the check is false beyond it. -/
theorem requestsAtAndBeyondProgEnd : Obligations.RequestsAtAndBeyondProgEnd := by
  intro s start readable
  rw [step_of_running start.idle start.running]
  refine ⟨fun heq hcheck => ?_, fun hlt => ?_⟩
  · exact decodeCycleWith_of_progEnd_le start.layout hcheck (by rw [heq]; exact BitVec.le_refl _)
  · have hcheck : s.checkRequest = .next false :=
      check_eq_false readable fun ⟨_, hle⟩ => absurd hlt (BitVec.not_lt.2 hle)
    exact ⟨_, decodeCycleWith_of_misaligned start.layout hcheck, rfl, rfl⟩

/-- Settles O35: the meaning of such a class is the raise, in the state where its fields are decoded. -/
theorem unknownClassRaisesAtDispatch : Obligations.UnknownClassRaisesAtDispatch := by
  intro s cls ss di c _ room
  have hexec : exec (.unknownClass cls ss di c) s = .next _ :=
    unknownClassCycle_next (passesTop_eq_false_iff.2 room)
  exact ⟨_, hexec, rfl, rfl, rfl, rfl, rfl, rfl, rfl, rfl, rfl, exec_samePorts hexec⟩

/-- Settles O36: the step is the meaning of the instruction fetched, which has the class of its bytes. -/
theorem unknownClassRaisedExactlyFor8To15 : Obligations.UnknownClassRaisedExactlyFor8To15 := by
  intro s t B start hcheck hlt hfetch e
  obtain ⟨i, r, hdec⟩ : ∃ i r, decode s.config B = .ok (i, r) :=
    ⟨_, _, decode_total (Nat.le_of_eq (fetchInstr_whole hfetch).1.symm)⟩
  rw [step_of_running start.idle start.running,
    decodeCycleWith_of_fetched start.layout hcheck hlt hfetch hdec] at e
  have hcls : i.header.cls = clsOf B := congrArg (·.hdr.cls) (fieldsAt_of_decode s.reqAddr hdec)
  rcases exec_dispatch (wellFormed_of_decode hdec) e with ⟨known, -, herr⟩ | ⟨unknown, -, herr⟩
  · exact ⟨fun h => absurd (hcls ▸ known) (BitVec.not_lt.2 h), fun _ => herr⟩
  · exact ⟨fun _ => hcls ▸ herr, fun h => absurd (hcls ▸ unknown) (BitVec.not_le.2 h)⟩

/-- Settles O37: dispatch selects a handler by its class, and no handler for a class without one. -/
theorem classSelectIsOneHot : Obligations.ClassSelectIsOneHot := by
  intro i s t wf e
  rcases exec_dispatch wf e with ⟨known, hsel, -⟩ | ⟨unknown, hsel, -⟩
  · exact ⟨fun _ => hsel ▸ toNat_one_shiftLeft_of_lt _ known, fun h => absurd known (BitVec.not_lt.2 h)⟩
  · exact ⟨fun h => absurd unknown (BitVec.not_le.2 h), fun _ => hsel⟩

/-- Settles O8: `di = 3` selects 16 bytes under both rules, and for any other `di` the rule's own condition decides. -/
theorem frameLengthConditions : Obligations.FrameLengthConditions := by
  intro B
  by_cases hdi : diOf B = 3#2
  · simp [frameLength, hdi, or_iff_not_imp_left]
  · simp [frameLength, hdi, and_assoc]

/-- Settles O15, by running the decoder on the three words. -/
theorem specWordsDecode : Obligations.SpecWordsDecode := ⟨rfl, rfl, rfl⟩

/-- Settles O24: the bytes are one whole instruction, so they are what is fetched. -/
theorem stepRunsTheDecodedInstruction : Obligations.StepRunsTheDecodedInstruction := by
  intro s B i start hcheck hlt stands hdec
  rw [step_of_running start.idle start.running]
  exact decodeCycleWith_of_fetched start.layout hcheck hlt
    (fetchInstr_of_memRead (wholeInstr_of_decode stands hdec) stands) hdec

/-- Settles O25: the error is raised in a state that holds no component yet. -/
theorem misalignedRequestRaisesBeforeFetch : Obligations.MisalignedRequestRaisesBeforeFetch := by
  intro s start hcheck
  rw [step_of_running start.idle start.running, decodeCycleWith_of_misaligned start.layout hcheck]
  exact ⟨_, rfl, rfl, rfl, rfl, rfl, rfl, rfl, rfl, rfl, rfl, rfl, by constructor <;> rfl⟩

end Sys2Proof.Claims
end

section
/-! SUPPORT. The decode cycle as a whole: the meaning of an instruction by its class, what it leaves in the instance, the
transitions of R181 run one after the other (R199), and what a cycle reads of memory (R187). -/

namespace Sys2Proof.Machine

/-! ### Results -/

theorem andThen_assoc {α β γ : Type} (r : Res α) (f : α → Res β) (g : β → Res γ) :
    andThen (andThen r f) g = andThen r fun a => andThen (f a) g := by
  cases r <;> rfl

/-- Two continuations that agree on every value of a result give the same result. -/
theorem andThen_congr {α β : Type} {r : Res α} {f g : α → Res β} (h : ∀ a, r = .next a → f a = g a) :
    andThen r f = andThen r g := by
  cases r with
  | next a => exact h a rfl
  | fault e => rfl
  | refused e => rfl

/-! ### The meaning of an instruction by its class -/

/-- An instruction of a class with a handler has the cycle of its class (R165). -/
theorem exec_of_known {i : Instr} {s : State} (wf : WellFormed s.config i) (known : i.header.cls < 8#4) :
    exec i s = classCycle (classOf (fieldsAt s.reqAddr i.header i.slots.disp32 i.ext64)) i.header i.slots.disp32
      i.ext64 s := by
  rcases exec_eq i s with ⟨c, hexec, hc⟩ | ⟨cls, ss, di, sl, rfl, -⟩
  · rw [classOf_eq hc]
    exact hexec
  · exact absurd known (BitVec.not_lt.2 (of_decide_eq_true wf))

/-- An instruction of a class without a handler has the cycle that raises the error (R166). -/
theorem exec_of_unknown {i : Instr} {s : State} (unknown : 8#4 ≤ i.header.cls) :
    exec i s = unknownClassCycle i.header.cls i.header i.slots.disp32 s := by
  rcases exec_eq i s with ⟨c, -, hc⟩ | ⟨cls, ss, di, sl, rfl, hexec⟩
  · exact absurd unknown (BitVec.not_le.2 (hc ▸ classId_lt_eight c))
  · exact hexec

/-! ### What a meaning leaves in the instance -/

theorem toTerminal_phase_ne_error {c : ClassId} {F : Fields} {O : Bundle} {n : NextAddr} {s : State} :
    (toTerminal c F O n s).inst.phase ≠ .error := by
  rcases toTerminal_cases c F O n s with ⟨-, h⟩ | ⟨-, h⟩ <;> rw [h] <;> nofun

/-- What a terminal leaves in the instance does not show the machine. -/
theorem toTerminal_inst_congr {c : ClassId} {F : Fields} {O : Bundle} {n : NextAddr} {s s' : State}
    (hconfig : s'.config = s.config) (hterminal : s'.reqTerminal = s.reqTerminal) (hinst : s'.inst = s.inst) :
    (toTerminal c F O n s').inst = (toTerminal c F O n s).inst := by
  unfold toTerminal
  rw [hterminal]
  split <;> simp [hconfig, hinst]

/-- What a meaning leaves in the instance depends neither on the instance before nor on the machine (R187). -/
theorem exec_inst_congr {i : Instr} {s t : State} (d : Instance) (m : MachineState) (wf : WellFormed s.config i)
    (e : exec i s = .next t) : ∃ t', exec i { s with inst := d, machine := m } = .next t' ∧ t'.inst = t.inst := by
  by_cases known : i.header.cls < 8#4
  · obtain ⟨room, rfl⟩ := classCycle_eq_next (exec_of_known wf known ▸ e)
    have hexec := exec_of_known (s := { s with inst := d, machine := m }) wf known
    exact ⟨_, hexec.trans (classCycle_next room), toTerminal_inst_congr rfl rfl rfl⟩
  · have unknown := BitVec.not_lt.1 known
    obtain ⟨room, rfl⟩ := unknownClassCycle_eq_next (exec_of_unknown unknown ▸ e)
    exact ⟨_, (exec_of_unknown unknown).trans (unknownClassCycle_next room), rfl⟩

/-- A meaning that ends in `ERROR` has raised the error of its class (R166). -/
theorem exec_eq_raiseError {i : Instr} {s t : State} (wf : WellFormed s.config i) (e : exec i s = .next t)
    (herror : t.inst.phase = .error) :
    t = raiseError (.unknownOpcodeClass i.header.cls s.reqAddr) (presented i.header i.slots.disp32 none s) := by
  by_cases known : i.header.cls < 8#4
  · obtain ⟨-, rfl⟩ := classCycle_eq_next (exec_of_known wf known ▸ e)
    exact absurd herror toTerminal_phase_ne_error
  · exact (unknownClassCycle_eq_next (exec_of_unknown (BitVec.not_lt.1 known) ▸ e)).2

/-- A cycle that ends in `ERROR` has raised it in a state that differs from the first one in the instance only (R226). -/
theorem decodeCycleWith_eq_raiseError {s t : State} (e : decodeCycleWith exec s = .next t)
    (herror : t.inst.phase = .error) : ∃ k d, t = raiseError k { s with inst := d } := by
  obtain ⟨-, ⟨-, rfl⟩ | ⟨-, -, B, i, r, -, hdec, e⟩⟩ := decodeCycleWith_eq_next e
  · exact ⟨_, _, rfl⟩
  · exact ⟨_, _, exec_eq_raiseError (wellFormed_of_decode hdec) e herror⟩

/-! ### The transitions one after the other -/

theorem completeCycle_of_isEnd {n : Nat} {s : State} (h : Phase.isEnd s.inst.phase = true) :
    completeCycle n s = .next s := by
  cases n with
  | zero => rfl
  | succ n => rw [completeCycle, if_pos h]

theorem completeCycle_of_inside {n : Nat} {s : State} (h : Phase.isEnd s.inst.phase = false) :
    completeCycle (n + 1) s = andThen (advance s) (completeCycle n) := by
  rw [completeCycle, if_neg (by simp [h])]

theorem advance_of_idle {s : State} (h : s.inst.phase = .idle) : advance s = whileRunning startCycle s := by
  rw [advance, h]

/-- Once the run has ended, the transitions from `IDLE` change nothing. -/
theorem completeCycle_of_ended {n : Nat} {s : State} (hidle : s.inst.phase = .idle) (hrun : s.run ≠ .running) :
    completeCycle n s = .next s := by
  have hadvance : advance s = .next s := by
    rw [advance_of_idle hidle]
    exact (whileRunning_cases startCycle s).elim (fun h => absurd h.1 hrun) (·.2)
  induction n with
  | zero => rfl
  | succ n ih => rw [completeCycle_of_inside (by rw [hidle]; rfl), hadvance, andThen_next, ih]

/-- From `FIELDS_DECODED`, dispatch and the terminal are the meaning of the decoded instruction (R165, R166, R181). -/
theorem completeCycle_of_fieldsDecoded {s : State} {B r : List Byte} {i : Instr}
    (hdec : decode s.config B = .ok (i, r)) (whole : WholeInstr s.config s.reqAddr B) :
    completeCycle 2 { s with inst := fieldsInstance s.config s.reqAddr B } = exec i s := by
  have hF := fieldsAt_of_decode s.reqAddr hdec
  have hcls : clsOf B = i.header.cls := congrArg (·.hdr.cls) hF.symm
  have hlen : formatOf i.ext64 = frameLength s.config.frameRule B := format_of_decode hdec
  have hpresented := presented_of_decode hdec whole
  have room : passesTop s.reqAddr (formatOf i.ext64) = false := by
    rw [hlen]
    exact whole.2
  rw [completeCycle_of_inside rfl]
  change andThen (if clsOf B < 8#4 then _ else _) _ = _
  rcases exec_eq i s with ⟨c, hexec, hc⟩ | ⟨cls, ss, di, sl, rfl, hexec⟩
  · have known : clsOf B < 8#4 := by
      rw [hcls, hc]
      exact classId_lt_eight c
    obtain rfl : classOf (fieldsOf s.config s.reqAddr B) = c := classOf_eq (hcls.trans hc)
    rw [if_pos known, andThen_next, hexec, classCycle_next room, hpresented, hF, hlen]
    rfl
  · obtain rfl : clsOf B = cls := hcls
    have unknown : 8#4 ≤ clsOf B := of_decide_eq_true (wellFormed_of_decode hdec)
    rw [if_neg (BitVec.not_lt.2 unknown), andThen_next, hexec, unknownClassCycle_next room,
      show presented _ _ none s = _ from hpresented]
    rfl

/-- A whole decode cycle is its first transition and then the others, faults and refusals included (R199): both make the
same tests in the same order, and for fetched bytes the other transitions are the meaning. -/
theorem decodeCycleWith_exec_eq (s : State) :
    decodeCycleWith exec s = andThen (startCycle s) (completeCycle 4) := by
  unfold decodeCycleWith startCycle
  split
  · rfl
  rw [andThen_assoc]
  refine andThen_congr fun ok _ => ?_
  split
  · exact (completeCycle_of_isEnd rfl).symm
  split
  · rfl
  rw [fetchInstr, andThen_assoc, andThen_assoc]
  refine andThen_congr fun B hB => ?_
  obtain ⟨-, -, eight⟩ := memRead_eq_next hB
  rw [andThen_next, completeCycle_of_inside rfl]
  change _ = andThen (if passesTop s.reqAddr (frameLength s.config.frameRule B) then _ else _) _
  split_ifs with room
  · rfl
  rw [andThen_assoc]
  refine andThen_congr fun B' hB' => ?_
  obtain ⟨hlen, whole⟩ := restOfInstr_whole eight (by simpa using room) hB'
  have hdec := decode_total (cfg := s.config) (Nat.le_of_eq whole.1.symm)
  rw [hdec, ← hlen]
  exact (completeCycle_of_fieldsDecoded hdec whole).symm

/-! ### What a cycle reads of memory -/

/-- The walk never turns back: an address that it finds is not before its cursor. -/
theorem le_of_walk_eq_true {rule : FrameRule} {m : Memory} {q hi n a : Nat}
    (h : walk rule m q hi n a = .next true) : a ≤ q := by
  by_contra hlt
  cases n with
  | zero => cases h
  | succ n =>
    rw [walk, if_neg (by omega), if_pos (by omega)] at h
    cases h

/-- The walk reads headers from its start on, each of which begins before its end (R157, R161). -/
theorem check_congr {rule : FrameRule} {m m' : Memory} {lo hi : Addr}
    (same : ∀ a, lo.toNat ≤ a → a < hi.toNat + 16 → readByte m' a = readByte m a) (q : Addr) :
    check rule m' lo hi q = check rule m lo hi q := by
  have hheader := headerBytes_le rule
  refine walk_congr (fun a ha inside => memRead_congr fun x hle hlt => same x ?_ ?_) _ _ _ .start
  · exact ha.le.trans hle
  · omega

/-- A fetch reads at most the 16 bytes from the address asked for (R44). -/
theorem fetchInstr_congr {s : State} {d : Instance} {m : MachineState}
    (same : ∀ x, s.reqAddr.toNat ≤ x → x < s.reqAddr.toNat + 16 → readByte m.mem x = readByte s.machine.mem x) :
    fetchInstr { s with inst := d, machine := m } = fetchInstr s := by
  have first : memRead m.mem s.reqAddr.toNat 8 = memRead s.machine.mem s.reqAddr.toNat 8 :=
    memRead_congr fun x hle hlt => same x hle (by omega)
  have second : memRead m.mem (s.reqAddr.toNat + 8) 8 = memRead s.machine.mem (s.reqAddr.toNat + 8) 8 :=
    memRead_congr fun x hle hlt => same x (by omega) (by omega)
  simp only [fetchInstr, restOfInstr, first, second]

/-- What a decode cycle leaves in the instance depends, of the machine, on the memory of the program region and the
16 bytes behind it only (R187). -/
theorem decodeCycleWith_inst_congr {s t : State} (d : Instance) (m : MachineState)
    (same : ∀ a, s.progStart.toNat ≤ a → a < s.progEnd.toNat + 16 → readByte m.mem a = readByte s.machine.mem a)
    (e : decodeCycleWith exec s = .next t) :
    ∃ t', decodeCycleWith exec { s with inst := d, machine := m } = .next t' ∧ t'.inst = t.inst := by
  have hcheck' : State.checkRequest { s with inst := d, machine := m } = s.checkRequest := check_congr same s.reqAddr
  obtain ⟨hlayout, ⟨hcheck, rfl⟩ | ⟨hcheck, hlt, B, i, r, hfetch, hdec, e⟩⟩ := decodeCycleWith_eq_next e
  · exact ⟨_, decodeCycleWith_of_misaligned hlayout (hcheck'.trans hcheck), rfl⟩
  · have hstart : s.progStart.toNat ≤ s.reqAddr.toNat := le_of_walk_eq_true hcheck
    have hend : s.reqAddr.toNat < s.progEnd.toNat := hlt
    have hfetch' : fetchInstr { s with inst := d, machine := m } = fetchInstr s :=
      fetchInstr_congr fun x hle hx => same x (by omega) (by omega)
    rw [decodeCycleWith_of_fetched (s := { s with inst := d, machine := m }) hlayout (hcheck'.trans hcheck) hlt
      (hfetch'.trans hfetch) hdec]
    exact exec_inst_congr d m (wellFormed_of_decode hdec) e

end Sys2Proof.Machine
end

section
/-! SUPPORT. The settled obligations of 43_decode_cycle_execution.md. -/

open Sys2Proof Sys2Proof.Machine

namespace Sys2Proof.Claims

/-- Two states with the same ports differ in the decode instance and the machine only. -/
theorem SamePorts.exists_eq {s s' : State} (h : SamePorts s s') :
    ∃ d m, s' = { s with inst := d, machine := m } := by
  obtain ⟨hconfig, hstart, hend, hlayout, haddr, hterminal, hrun⟩ := h
  cases s'
  cases hconfig; cases hstart; cases hend; cases hlayout; cases haddr; cases hterminal; cases hrun
  exact ⟨_, _, rfl⟩

/-- Settles O38: the meaning of a class with a handler ends in the terminal asked for. -/
theorem terminalsMutateOrDescribe : Obligations.TerminalsMutateOrDescribe := by
  intro i s t wf known e
  obtain ⟨-, h⟩ := classCycle_eq_next (exec_of_known wf known ▸ e)
  refine ⟨fun ht => ?_, fun ht => ?_⟩
  · obtain rfl := h.trans (toTerminal_of_disassemble ht)
    exact ⟨rfl, rfl, rfl⟩
  · obtain rfl := h.trans (toTerminal_of_execute ht)
    exact ⟨rfl, rfl, exec_machine_of_execute wf e ht known⟩

/-- Settles O49: the release asks for the successor, and the check of an address that is no boundary is false. -/
theorem transferIntoAnInstructionIsMisaligned : Obligations.TransferIntoAnInstructionIsMisaligned := by
  intro s a hp hrun hsucc hne hlayout readable hnot
  have hlt : s.machine.successor.toNat < addressSpace := by
    rw [hsucc, BitVec.toNat_setWidth_of_le (by decide)]
    exact a.isLt
  have hgoesOn : s.machine.successor ≠ s.progEnd.setWidth 65 := by
    rw [hsucc]
    bv_omega
  have hreq : s.machine.successor.setWidth 64 = a := by
    rw [hsucc]
    bv_omega
  obtain ⟨hgoOn, -⟩ := driverReleasesTheInstance s
  have hrelease := hgoOn hp hlt hgoesOn
  rw [hreq] at hrelease
  obtain ⟨t, ht, hphase, herr, -⟩ := misalignedRequestRaisesBeforeFetch
    { s with inst := Instance.idle, reqAddr := a } ⟨rfl, hrun, hlayout⟩ (check_eq_false readable fun h => hnot h.1)
  exact ⟨_, t, hrelease, ht, hphase, herr⟩

/-- Settles O50: the error is raised in a state that differs from the first one in the instance only. -/
theorem errorLeavesTheMachineAlone : Obligations.ErrorLeavesTheMachineAlone := by
  intro s t hidle e herror
  by_cases hrun : s.run = .running
  · obtain ⟨k, d, rfl⟩ := decodeCycleWith_eq_raiseError (step_of_running hidle hrun ▸ e) herror
    exact ⟨rfl, rfl, rfl, rfl, rfl, by constructor <;> rfl⟩
  · cases (step_of_ended hidle hrun).symm.trans e
    cases hidle.symm.trans herror

/-- Settles O53: while the run goes on, the cycle is its first transition and four more; after that both change
nothing. -/
theorem wholeCycleIsItsTransitions : Obligations.WholeCycleIsItsTransitions := by
  intro s hidle
  by_cases hrun : s.run = .running
  · rw [step_of_running hidle hrun, decodeCycleWith_exec_eq, completeCycle_of_inside (by rw [hidle]; rfl),
      advance_of_idle hidle, whileRunning, hrun]
  · rw [step_of_ended hidle hrun, completeCycle_of_ended hidle hrun]

/-- Settles O57: the walk and the fetch read the program region only, and no terminal shows the machine. -/
theorem outputsDependOnTheProgramOnly : Obligations.OutputsDependOnTheProgramOnly := by
  intro s s' t start hidle ports same e
  obtain ⟨d, m, rfl⟩ := ports.exists_eq
  rw [step_of_running start.idle start.running] at e
  rw [step_of_running hidle start.running]
  exact decodeCycleWith_inst_congr d m same e

/-- Settles O47: with `EXECUTE` asked for, the driver's move is the transition to `EXECUTED`. -/
theorem executionAfterDisassembly : Obligations.ExecutionAfterDisassembly := by
  intro s F O n hp ht hF hO hn
  have hstep : step s = .next (executed (classOf F) F O n s) := by
    rw [step_of_isEnd (by rw [hp]; rfl), advance, hp]
    simp only [ht, executeTransition, hF, hO, hn]
  exact ⟨_, hstep, rfl, rfl, by constructor <;> rfl⟩

/-- Settles O58, by induction on the elements before. -/
theorem microOpsRunInOrder : Obligations.MicroOpsRunInOrder := by
  refine fun MicroOp apply => ⟨fun _ => rfl, fun xs ys op m => ?_⟩
  induction xs generalizing m with
  | nil => rfl
  | cons x xs ih => exact ih (apply x m)

/-- Settles O60: the hook's one answer is the error. -/
theorem defaultUpdateIsUnsupported : Obligations.DefaultUpdateIsUnsupported := fun _ => rfl

end Sys2Proof.Claims
end

section
/-! SUPPORT. The disassembly line as a joined list (R203), and that an operand a handler chooses is made of delivered
parts only (R202): every member of the bundle is one a handler could build of delivered parts. -/

open Sys2Proof.Claims

namespace Sys2Proof.Machine

/-! ### The line of an operand list -/

theorem render_append_operandTail (render : Operand → Text) (o : Operand) (os : List Operand) :
    render o ++ operandTail render os = List.intercalate ", ".toList ((o :: os).map render) := by
  induction os generalizing o with
  | nil => rw [operandTail, List.append_nil, List.map_singleton, List.intercalate_singleton]
  | cons o' os ih =>
    have tail : operandTail render (o' :: os) = ", ".toList ++ (render o' ++ operandTail render os) := rfl
    simp only [tail, ih o', ← List.append_assoc, List.map_cons, List.intercalate_cons_cons]

theorem lineOf_eq (render : Operand → Text) (mnemonic : Text) (os : List Operand) :
    lineOf render mnemonic os =
      if os = [] then mnemonic
      else mnemonic ++ " ".toList ++ List.intercalate ", ".toList (os.map render) := by
  cases os with
  | nil => rfl
  | cons o os =>
    rw [if_neg (List.cons_ne_nil o os), ← render_append_operandTail]
    exact List.append_assoc ..

/-! ### Delivered parts -/

section
variable (F : Fields) (O : Bundle)

theorem deliveredId_idOf (i : IdChoice) : DeliveredId F (idOf F i) := by
  cases i with
  | dest => exact .inl rfl
  | base => exact .inr (.inl rfl)
  | index => exact .inr (.inr rfl)

theorem deliveredWidth_chosenWidth (w : WidthChoice) : DeliveredWidth F (chosenWidth F w) := by
  cases w with
  | ss => exact .inl rfl
  | ds => exact .inr (.inl rfl)
  | full => exact .inr (.inr rfl)

theorem deliveredOperand_builtRegister (i : IdChoice) (w : WidthChoice) :
    DeliveredOperand F O (.reg (builtRegister F (i, w))) :=
  ⟨deliveredId_idOf F i, deliveredWidth_chosenWidth F w⟩

variable {F O}

theorem deliveredOperand_of_map_builtRegister {c : Option (IdChoice × WidthChoice)} {r : RegisterOperand}
    (h : c.map (builtRegister F) = some r) : DeliveredOperand F O (.reg r) := by
  obtain ⟨⟨i, w⟩, -, rfl⟩ := Option.map_eq_some_iff.1 h
  exact deliveredOperand_builtRegister F O i w

theorem deliveredValue_of_valueOf {v : ValueChoice} {x : Word} (h : valueOf F O v = some x) :
    DeliveredValue F O x := by
  cases v with
  | imm => exact .inl h
  | ext => exact .inr (.inl h)
  | displacement => exact .inr (.inr (Option.some.inj h).symm)

theorem deliveredOperand_of_imm {v : ValueChoice} {w : WidthChoice} {o : Operand}
    (h : operandOf F O (.imm v w) = some o) : DeliveredOperand F O o := by
  obtain ⟨x, hx, rfl⟩ := Option.map_eq_some_iff.1 h
  exact ⟨deliveredValue_of_valueOf hx, deliveredWidth_chosenWidth F w⟩

theorem deliveredOperand_of_builtMem {base index : Option (IdChoice × WidthChoice)} {d : Option ValueChoice}
    {z : WidthChoice} {o : Operand} (h : operandOf F O (.builtMem base index d z) = some o) :
    DeliveredOperand F O o := by
  cases h
  have register := @deliveredOperand_of_map_builtRegister F O
  refine ⟨fun r hr => hr.elim register register, rfl, fun x hx => ?_, deliveredWidth_chosenWidth F z⟩
  obtain ⟨v, -, hv⟩ := Option.bind_eq_some_iff.1 hx
  exact deliveredValue_of_valueOf hv

/-! ### The members of the bundle -/

theorem srcOperand_eq_builtRegister {r : RegisterOperand} (h : srcOperand F.hdr = some r) :
    r = builtRegister F (.base, .ss) := by
  obtain ⟨-, h⟩ := Option.ite_none_right_eq_some.1 h
  exact (Option.some.inj h).symm

/-- The register behind a present flag as a choice of a handler: its id at the address width, or nothing (R129). -/
def flaggedChoice (flag : BitVec 1) (i : IdChoice) : Option (IdChoice × WidthChoice) :=
  if flag = 1#1 then some (i, .full) else none

theorem map_flaggedChoice (flag : BitVec 1) (i : IdChoice) :
    (flaggedChoice flag i).map (builtRegister F) = flaggedRegister flag (idOf F i) := by
  rw [flaggedChoice, flaggedRegister]
  split <;> rfl

/-- The width of the bundle's memory operand as a choice of a handler (R129). -/
def memSizeChoice : MemSizeSel → WidthChoice
  | .ss => .ss
  | .ds => .ds

theorem chosenWidth_memSizeChoice (sel : MemSizeSel) :
    chosenWidth F (memSizeChoice sel) = widthOf (memSizeCode sel F.hdr) := by
  cases sel <;> rfl

theorem operandOf_builtMem_of_memOperand {sel : MemSizeSel} {m : MemoryOperand}
    (h : memOperand sel F.hdr F.disp32 = some m) :
    operandOf F O (.builtMem (flaggedChoice F.hdr.bp .base) (flaggedChoice F.hdr.ip .index) (some .displacement)
      (memSizeChoice sel)) = some (.mem m) := by
  obtain ⟨-, hm⟩ := Option.ite_none_right_eq_some.1 h
  obtain rfl := Option.some.inj hm
  rw [operandOf, map_flaggedChoice, map_flaggedChoice, chosenWidth_memSizeChoice]
  rfl

end

/-- R202: what a choice names is made of delivered parts, for the bundle that operand resolution delivers. -/
theorem deliveredOperand_of_operandOf {cfg : Config} {F : Fields} {ch : OperandChoice} {o : Operand}
    (h : operandOf F (resolveOperands cfg F) ch = some o) : DeliveredOperand F (resolveOperands cfg F) o := by
  cases ch with
  | dst =>
    cases h
    exact deliveredOperand_builtRegister F _ .dest .ds
  | src =>
    obtain ⟨r, hr, rfl⟩ := Option.map_eq_some_iff.1 h
    exact srcOperand_eq_builtRegister hr ▸ deliveredOperand_builtRegister F _ .base .ss
  | memOp =>
    obtain ⟨m, hm, rfl⟩ := Option.map_eq_some_iff.1 h
    exact deliveredOperand_of_builtMem (operandOf_builtMem_of_memOperand hm)
  | imm => exact deliveredOperand_of_imm h
  | builtReg i w =>
    cases h
    exact deliveredOperand_builtRegister F _ i w
  | builtMem => exact deliveredOperand_of_builtMem h

end Sys2Proof.Machine
end

section
/-! SUPPORT. The settled obligation of 44_class_handlers.md. -/

open Sys2Proof Sys2Proof.Machine

namespace Sys2Proof.Claims

/-- Settles O46: the line joins the rendered operands, and each operand comes from a choice of the handler. -/
theorem disassemblyLineShape : Obligations.DisassemblyLineShape := by
  refine fun cfg c F => ⟨lineOf_eq .., fun o ho => ?_⟩
  obtain ⟨ch, -, h⟩ := List.mem_filterMap.1 ho
  exact deliveredOperand_of_operandOf h

end Sys2Proof.Claims
end

section
/-! SUPPORT. What an error leaves for the driver, and the settled obligations of 60_exceptions.md. -/

open Sys2Proof Sys2Proof.Machine

namespace Sys2Proof.Claims

/-- Only a run that goes on raises an error from `IDLE`: a step of an ended one changes nothing (R191). -/
theorem running_of_step_error {s t : State} (hidle : s.inst.phase = .idle) (e : step s = .next t)
    (herror : t.inst.phase = .error) : s.run = .running := by
  by_contra hrun
  cases (step_of_ended hidle hrun).symm.trans e
  cases hidle.symm.trans herror

/-- A cycle that ends in `ERROR` changes nothing but the decode instance (R186, R226). -/
theorem eq_withInst_of_step_error {s t : State} (hidle : s.inst.phase = .idle) (e : step s = .next t)
    (herror : t.inst.phase = .error) : ∃ d, t = { s with inst := d } := by
  obtain ⟨-, -, -, -, hmachine, ports⟩ := errorLeavesTheMachineAlone s t hidle e herror
  obtain ⟨d, m, rfl⟩ := ports.exists_eq
  cases hmachine
  exact ⟨d, rfl⟩

/-- The cycle at the address asked for shows the same in a run started again, whatever instance was there (R187). -/
theorem step_inst_congr {s t : State} (hidle : s.inst.phase = .idle) (hrun : s.run = .running)
    (e : step s = .next t) :
    ∃ v, step { s with inst := Instance.idle, run := .running } = .next v ∧ v.inst = t.inst := by
  rw [← hrun, step_of_running (s := { s with inst := Instance.idle }) rfl hrun]
  exact decodeCycleWith_inst_congr Instance.idle s.machine (fun _ _ _ => rfl) (step_of_running hidle hrun ▸ e)

/-- The error of an instance that a cycle can leave: none, that of the boundary check, or that of dispatch (R222,
R223). -/
theorem err_cases_of_instanceOk {cfg : Config} {d : Instance} (h : InstanceOk cfg d) :
    d.err = none ∨ (∃ c a, d.err = some (.unknownOpcodeClass c a)) ∨ ∃ a, d.err = some (.misalignedAddress a) := by
  cases h with
  | misaligned a => exact .inr (.inr ⟨a, rfl⟩)
  | unknownClass a B => exact .inr (.inl ⟨clsOf B, a, rfl⟩)
  | idle | rawBytes | framed | fieldsDecoded | operandsResolved | disassembled | executed => exact .inl rfl

/-- Settles O51: the error changed only the instance, so after the release the request finds the same program. -/
theorem sameErrorAgain : Obligations.SameErrorAgain := by
  intro s t hidle e herror
  have hrun := running_of_step_error hidle e herror
  obtain ⟨-, -, -, hrelease, -⟩ := driverReleasesTheInstance t
  obtain ⟨v, hv, hinst⟩ := step_inst_congr hidle hrun e
  have again : v.machine = s.machine := by
    obtain ⟨-, -, -, -, hmachine, -⟩ := errorLeavesTheMachineAlone _ v rfl hv (hinst ▸ herror)
    exact hmachine
  obtain ⟨d, rfl⟩ := eq_withInst_of_step_error hidle e herror
  exact ⟨_, v, hrelease herror, rfl, rfl, step_of_ended rfl nofun, hv, hinst, again⟩

/-- Settles O52: a step keeps the invariant, and an instance that meets it shows no error or one of two kinds. -/
theorem errorCodesOfTheBlock : Obligations.ErrorCodesOfTheBlock := by
  refine ⟨fun _ _ _ _ => ⟨rfl, rfl, rfl, rfl, rfl⟩, fun s t hs e => ?_⟩
  rcases err_cases_of_instanceOk (inv_of_step hs e).inst with h | ⟨c, a, h⟩ | ⟨a, h⟩ <;> rw [h]
  · exact .inl rfl
  · exact .inr (.inl rfl)
  · exact .inr (.inr rfl)

end Sys2Proof.Claims
end
